-- ==== Sys2Proof/Word.lean ====
section
/-! DEFINITION. The plain data types of the block: bytes, register words, and the closed sets of names the spec
gives its registers, fields and agents. Nothing here computes; the encodings of these names are in Decode.lean and
Machine/Flags.lean. -/

namespace Sys2Proof

/-- A byte: bits 7 (most significant) down to 0 (00_scope.md R9). -/
abbrev Byte := BitVec 8

/-- A register word: every register is 32 bits (00_scope.md R9). -/
abbrev Word := BitVec 32

/-- CTRL.MODE as stored: three conversions and the reserved value 0b11, which is stored as written
(10_state.md R26). -/
inductive Mode where
  | mono
  | gray8
  | gray2
  | reserved
  deriving DecidableEq, Repr

/-- The three conversions of the block (00_scope.md R1). -/
inductive Conv where
  | mono
  | gray8
  | gray2
  deriving DecidableEq, Repr

/-- CTRL.BIT_ORDER: the place of a group's first pixel inside the output byte (10_state.md R26, 40_command.md R107). -/
inductive BitOrder where
  | msbFirst
  | lsbFirst
  deriving DecidableEq, Repr

/-- The causes of STATUS.ERRCODE (60_exceptions.md R180). -/
inductive CmdError where
  | mode
  | dim
  | range
  | overlap
  | bus
  deriving DecidableEq, Repr

/-- The eight words of the register window (10_state.md R23); `rsvd` is the reserved offset 0x1C. -/
inductive Reg where
  | ctrl
  | status
  | srcAddr
  | dstAddr
  | width
  | height
  | outlen
  | rsvd
  deriving DecidableEq, Repr

/-- The kind of an engine access, the second argument of `busFault` and `busHang` (00_scope.md R7). -/
inductive AccessKind where
  | rd
  | wr
  deriving DecidableEq, Repr

/-- What the platform answers to the accesses of one engine step: all served, an error response, or no response
ever (00_scope.md R7, R11; 40_command.md R104). -/
inductive BusAnswer where
  | ok
  | busErr
  | hang
  deriving DecidableEq, Repr

/-- The colour channels of a pixel (20_memory.md R51); the alpha byte is no part of it, since no output depends on it
(40_command.md R108). -/
structure Pixel where
  r : Byte
  g : Byte
  b : Byte
  deriving DecidableEq, Repr

end Sys2Proof
end

