-- ==== Sys2Proof/Syntax.lean ====
section
/-! DEFINITION. The instructions: one constructor for each row of spec/opcode_table.json. An instruction of this block
is one 32-bit write of the CTRL register (30_encoding.md R70, R75). -/

namespace Sys2Proof

/-- A command word written to CTRL, decoded (30_encoding.md R71). `order` is bit 3 (BIT_ORDER) and `ie` bit 4 (IE). -/
inductive Instr where
  /-- `CONV.MONO` (41_mono.md R120), with suffix `.LSB` when `order` is LSB-first and `.IE` when `ie`. -/
  | convMono (order : BitOrder) (ie : Bool)
  /-- `CONV.GRAY8` (42_gray8.md R140); `order` is stored and has no effect on the output (30_encoding.md R74). -/
  | convGray8 (order : BitOrder) (ie : Bool)
  /-- `CONV.GRAY2` (43_gray2.md R160). -/
  | convGray2 (order : BitOrder) (ie : Bool)
  /-- START with the reserved MODE 0b11, rejected with ERR_MODE (60_exceptions.md R181). -/
  | reservedMode (order : BitOrder) (ie : Bool)
  /-- `CTRL.SET`: a configuration write, START = 0 (10_state.md R32). -/
  | ctrlSet (mode : Mode) (order : BitOrder) (ie : Bool)
  deriving DecidableEq, Repr

end Sys2Proof
end

