-- ==== Sys2Proof/WellFormed.lean ====
section
/-! DEFINITION. Well-formedness of instructions and of the words that carry them. -/

namespace Sys2Proof

/-- An instruction's operands fit the fields of 30_encoding.md R70. The operand types have exactly the values of their
fields (BIT_ORDER and IE one bit each, MODE two bits with every value storable, 10_state.md R26), so every term is
well-formed, arm by arm. -/
def Instr.wf : Instr → Bool
  | .convMono _ _ => true
  | .convGray8 _ _ => true
  | .convGray2 _ _ => true
  | .reservedMode _ _ => true
  | .ctrlSet _ _ _ => true

/-- A CTRL word as software writes it: the reserved bits 31:5 are 0 (30_encoding.md R70, "ignored; software
writes 0"). The block decodes any word; this is the check on a program's words. -/
def ctrlWordWf (w : Word) : Bool :=
  w.extractLsb' 5 27 == 0#27

end Sys2Proof
end

