-- ==== Sys2Proof/Decode.lean ====
section
/-! DEFINITION. Decoding a CTRL word into an instruction, total on every word, and the encoder
(30_encoding.md R70, R71, R74, R75, R77). -/

namespace Sys2Proof

/-- MODE from its two bits (10_state.md R26: 0b00 MONO, 0b01 GRAY8, 0b10 GRAY2, 0b11 reserved). -/
def Mode.ofBits (b : BitVec 2) : Mode :=
  if b = 0b00#2 then .mono
  else if b = 0b01#2 then .gray8
  else if b = 0b10#2 then .gray2
  else .reserved

/-- The two bits of MODE (10_state.md R26). -/
def Mode.toBits : Mode → BitVec 2
  | .mono => 0b00#2
  | .gray8 => 0b01#2
  | .gray2 => 0b10#2
  | .reserved => 0b11#2

/-- BIT_ORDER from its bit: 0 MSB-first, 1 LSB-first (10_state.md R26). -/
def BitOrder.ofBit : Bool → BitOrder
  | false => .msbFirst
  | true => .lsbFirst

/-- The bit of BIT_ORDER (10_state.md R26). -/
def BitOrder.toBit : BitOrder → Bool
  | .msbFirst => false
  | .lsbFirst => true

/-- Field MODE of a CTRL word, bits 2:1 (30_encoding.md R70). -/
def ctrlModeField (w : Word) : Mode := Mode.ofBits (w.extractLsb' 1 2)

/-- Field BIT_ORDER of a CTRL word, bit 3 (30_encoding.md R70). -/
def ctrlOrderField (w : Word) : BitOrder := BitOrder.ofBit (w.getLsbD 3)

/-- Field IE of a CTRL word, bit 4 (30_encoding.md R70). -/
def ctrlIeField (w : Word) : Bool := w.getLsbD 4

/-- Decoding of a CTRL word by the mask and match of 30_encoding.md R71; bits 31:5 never change the meaning (R75).
The last arm is the row of mask 0x1, match 0x0: the four rows before it take every word with bit 0 set. -/
def decodeWord (w : Word) : Instr :=
  if w &&& 0x7#32 = 0x1#32 then .convMono (ctrlOrderField w) (ctrlIeField w)
  else if w &&& 0x7#32 = 0x3#32 then .convGray8 (ctrlOrderField w) (ctrlIeField w)
  else if w &&& 0x7#32 = 0x5#32 then .convGray2 (ctrlOrderField w) (ctrlIeField w)
  else if w &&& 0x7#32 = 0x7#32 then .reservedMode (ctrlOrderField w) (ctrlIeField w)
  else .ctrlSet (ctrlModeField w) (ctrlOrderField w) (ctrlIeField w)

/-- Why a bit string is no instruction of the block. DESIGN CHOICE, safe (log entry 23). -/
inductive DecodeError where
  /-- It is longer than the one 32-bit word a command is (30_encoding.md R75). Safe: no host access carries it. -/
  | longerThanAWord
  /-- The number given has bits above the length given. Safe. -/
  | bitsAboveLength
  deriving DecidableEq, Repr

/-- Decoding of a string of `nbits` bits given as a number, bit 0 first: bits the word has above `nbits` are 0. -/
def decodeBits (nbits w : Nat) : Except DecodeError Instr :=
  if 32 < nbits then .error .longerThanAWord
  else if 2 ^ nbits ≤ w then .error .bitsAboveLength
  else .ok (decodeWord (BitVec.ofNat 32 w))

/-- The instruction the decoder reads from a row of spec/opcode_table.json: a row is one 32-bit CTRL word and the
table numbers its bits as the register does, so no byte order enters. -/
def decodeTableWord (nbits w : Nat) : Option Instr :=
  match decodeBits nbits w with
  | .ok i => some i
  | .error _ => none

/-- Field START of an instruction's word, bit 0 (30_encoding.md R71). -/
def Instr.start : Instr → Bool
  | .convMono _ _ => true
  | .convGray8 _ _ => true
  | .convGray2 _ _ => true
  | .reservedMode _ _ => true
  | .ctrlSet _ _ _ => false

/-- Field MODE of an instruction's word, bits 2:1 (30_encoding.md R71). -/
def Instr.mode : Instr → Mode
  | .convMono _ _ => .mono
  | .convGray8 _ _ => .gray8
  | .convGray2 _ _ => .gray2
  | .reservedMode _ _ => .reserved
  | .ctrlSet m _ _ => m

/-- Field BIT_ORDER of an instruction's word, bit 3 (30_encoding.md R70). -/
def Instr.order : Instr → BitOrder
  | .convMono o _ => o
  | .convGray8 o _ => o
  | .convGray2 o _ => o
  | .reservedMode o _ => o
  | .ctrlSet _ o _ => o

/-- Field IE of an instruction's word, bit 4 (30_encoding.md R70). -/
def Instr.ie : Instr → Bool
  | .convMono _ ie => ie
  | .convGray8 _ ie => ie
  | .convGray2 _ ie => ie
  | .reservedMode _ ie => ie
  | .ctrlSet _ _ ie => ie

/-- The CTRL word with the given fields, `rrr... I O M M S` with the reserved bits 0 (30_encoding.md R70). -/
def ctrlFields (start : Bool) (mode : Mode) (order : BitOrder) (ie : Bool) : Word :=
  0#27 ++ BitVec.ofBool ie ++ BitVec.ofBool order.toBit ++ mode.toBits ++ BitVec.ofBool start

/-- The word of an instruction (30_encoding.md R70, R77). -/
def encode (i : Instr) : Word := ctrlFields i.start i.mode i.order i.ie

end Sys2Proof
end

