-- ==== Sys2Proof/Config.lean ====
section
/-! DEFINITION. The parameters whose values the spec fixes (00_scope.md R6, R7), what an unlisted byte of memory reads
as, and the free values: constants with no body, for what the spec leaves open ("a model draws it freely"). The
parameters the spec leaves OPEN to the platform (BASE, busFault, busHang, side-effect memory) are plain data in State
(Machine/State.lean, `Platform`), so that every statement holds for every platform. -/

namespace Sys2Proof.Config

/-- `AW`: the width in bits of every address the engine issues (00_scope.md R7). -/
abbrev AW : Nat := 32

/-- The number of bytes of memory, `2^AW` (20_memory.md R50). -/
abbrev addrSpace : Nat := 2 ^ AW

/-- A channel value strictly below it makes a pixel black (00_scope.md R6). The literals of R6 are UNVERIFIED: the spec
calls them unaudited (log entry 20). -/
abbrev T_MONO : Nat := 150

/-- Gray values up to it are level 0 (00_scope.md R6). -/
abbrev Q_T1 : Nat := 64

/-- Gray values above `Q_T1` and up to it are level 1 (00_scope.md R6). -/
abbrev Q_T2 : Nat := 128

/-- Gray values above `Q_T2` and up to it are level 2, those above it level 3 (00_scope.md R6). -/
abbrev Q_T3 : Nat := 192

/-- Bytes per input pixel, in the order R, G, B, A (00_scope.md R6). -/
abbrev BYTES_PER_PIXEL : Nat := 4

/-- Pixels per output byte of CONV.MONO (00_scope.md R6). -/
abbrev GROUP_MONO : Nat := 8

/-- Pixels per output byte of CONV.GRAY8 (00_scope.md R6). -/
abbrev GROUP_GRAY8 : Nat := 1

/-- Pixels per output byte of CONV.GRAY2 (00_scope.md R6). -/
abbrev GROUP_GRAY2 : Nat := 4

/-- `WIDTH*HEIGHT` must be a multiple of it (00_scope.md R6). -/
abbrev DIM_MULTIPLE : Nat := 8

/-- The width in bits of WIDTH and HEIGHT (00_scope.md R6). -/
abbrev DIM_WIDTH_BITS : Nat := 32

/-- A value of WIDTH or HEIGHT, unsigned (00_scope.md R6). -/
abbrev Dim : Type := BitVec DIM_WIDTH_BITS

/-- The size in bytes of the register window at `BASE` (10_state.md R23). -/
abbrev WINDOW_BYTES : Nat := 32

/-- What a byte of memory that nothing has written reads as. DESIGN CHOICE, unsafe (log entry 1): the spec says the
contents of memory are the platform's (10_state.md R40). -/
def unlistedByte : Byte := 0#8

/-- A free byte: "any value, each byte drawn freely" (93_implementation_defined.md I10, I11, I12). Log entry 2. -/
opaque freeByte : Nat → Byte

/-- A free bit: whether an optional access is made, or which of two admitted outcomes occurs
(93_implementation_defined.md I13). Log entry 2. -/
opaque freeBit : Nat → Bool

/-- A free number: which of several admitted values a host load returns (93_implementation_defined.md I9).
Log entry 2. -/
opaque freeIndex : Nat → Nat

end Sys2Proof.Config
end

