-- ==== Sys2Proof/Machine/State.lean ====
section
/-! DEFINITION. The machine's state as plain data, the reasons a step can stop, and the state after reset
(10_state.md R23 to R31, R40). The spec's own state comes first in `State`; the fields after `mem` are the model's own,
each named in the assumption log. -/

namespace Sys2Proof.Machine

/-- The stored fields of CTRL; START is never stored and the reserved bits do not exist (10_state.md R25, R26). -/
structure Ctrl where
  mode : Mode
  order : BitOrder
  ie : Bool
  deriving DecidableEq, Repr

/-- The fields of STATUS (10_state.md R27). -/
structure Status where
  busy : Bool
  done : Bool
  err : Bool
  errcode : BitVec 4
  deriving DecidableEq, Repr

/-- The engine's hidden state (10_state.md R31). `g` and `len` (the spec's `E.g` and `E.L`) are counts "of at least
`AW + 1` bits" that never wrap (R21), hence Nat. DESIGN CHOICE, safe (log entry 14). -/
structure Engine where
  /-- `E.g`: index of the next output byte to produce. -/
  g : Nat
  /-- `E.L`: output length of the running command. -/
  len : Nat
  /-- `E.mode`. -/
  mode : Mode
  /-- `E.order`. -/
  order : BitOrder
  deriving DecidableEq, Repr

/-- Memory: (address, byte) pairs in canonical form (Machine/Ops.lean, `Memory.wf`); an unlisted address reads as
`Config.unlistedByte`. -/
abbrev Memory := List Host.Cell

/-- A run of consecutive addresses. -/
structure Region where
  lo : Nat
  len : Nat
  deriving DecidableEq, Repr

/-- A run of addresses whose engine accesses of one kind get a certain answer. -/
structure BusRegion where
  kind : AccessKind
  lo : Nat
  len : Nat
  deriving DecidableEq, Repr

/-- The OPEN parameters of 00_scope.md R7, as plain data that no step changes: any predicate on the finitely many
addresses is such a list. Log entry 3. -/
structure Platform where
  /-- `BASE`: host address of the register window. -/
  base : Word
  /-- `busFault`: the accesses that get an error response. -/
  faults : List BusRegion
  /-- `busHang`: the accesses that never get a response. -/
  hangs : List BusRegion
  /-- Bytes with side effects other than the block's own window (20_memory.md R56). -/
  devices : List Region
  deriving DecidableEq, Repr

/-- The destination range of an accepted command whose end the host has not yet observed, with memory as it stood at
its START: the old values a host load may still return (20_memory.md R58, R60). Log entry 4. -/
structure Transfer where
  dst : Nat
  len : Nat
  old : Memory
  deriving DecidableEq, Repr

/-- One access of the host, or an event at the block's inputs (30_encoding.md R76, 70_reset_and_hazards.md R200). -/
inductive HostOp where
  /-- A host write of `v`, `bytes` wide, at `BASE + off`; `W32 off, v` is the one with `bytes = 4`. -/
  | regWrite (off bytes : Nat) (v : Word)
  /-- A host read, `bytes` wide, at `BASE + off`; `R32 off` is the one with `bytes = 4`. -/
  | regRead (off bytes : Nat)
  /-- `POLL off, mask, val`: repeat `R32 off` until `(result and mask) == val`. -/
  | poll (off : Nat) (mask val : Word)
  /-- `SB addr, v`. -/
  | sb (addr : Word) (v : Byte)
  /-- `LB addr`. -/
  | lb (addr : Word)
  /-- `RESET`: the platform asserts and releases the reset input. -/
  | reset
  /-- A register write by a second host agent within the first one's programming (60_exceptions.md R192). -/
  | secondHostWrite (off : Nat) (v : Word)
  deriving DecidableEq, Repr

/-- Which agent takes the next step (00_scope.md R8, 40_command.md R104). -/
inductive Event where
  | engine
  | host (op : HostOp)
  deriving DecidableEq, Repr

/-- What a host read returned. -/
inductive HostResult where
  | word (w : Word)
  | byte (b : Byte)
  deriving DecidableEq, Repr

/-- The state of the block, the memory it shares with the host, and what the model adds to run them. -/
structure State where
  /-- CTRL, offset 0x00 (10_state.md R26). -/
  ctrl : Ctrl
  /-- STATUS, offset 0x04 (10_state.md R27). -/
  status : Status
  /-- SRC_ADDR, offset 0x08 (10_state.md R29). -/
  srcAddr : Word
  /-- DST_ADDR, offset 0x0C (10_state.md R29). -/
  dstAddr : Word
  /-- WIDTH, offset 0x10 (10_state.md R29). -/
  width : Config.Dim
  /-- HEIGHT, offset 0x14 (10_state.md R29). -/
  height : Config.Dim
  /-- OUTLEN, offset 0x18 (10_state.md R30). -/
  outlen : Word
  /-- The engine's hidden state (10_state.md R31). -/
  engine : Engine
  /-- The memory shared by host and engine (20_memory.md R50). -/
  mem : Memory
  /-- An access of the running command will never get a response (40_command.md R104). Log entry 5. -/
  hung : Bool
  /-- The host wrote a byte of the running command's ranges (20_memory.md R67). Log entry 6. -/
  disturbed : Bool
  /-- Commands accepted since the last host read of STATUS that showed BUSY = 0, newest first. Log entry 4. -/
  unsynced : List Transfer
  /-- How many free values have been drawn. Log entry 2. -/
  draws : Nat
  /-- The platform's parameters. Log entry 3. -/
  platform : Platform
  /-- Which agent steps next, in order. Log entry 7. -/
  schedule : List Event
  /-- What the host's reads returned, newest first. Log entry 7. -/
  results : List HostResult
  deriving DecidableEq, Repr

/-- Why the machine stops. No step from a state that meets the model's invariant (Safety.lean, `State.Inv`) raises one:
they name accesses and modes that 40_command.md R103 keeps out of an accepted command. DEDUCED (log entry 15). -/
inductive Fault where
  /-- Raised by an engine step whose access lies at or past `2^AW`, an address that does not exist (20_memory.md R50).
  Safe: validate rejects such commands (40_command.md R103). -/
  | outsideAddressSpace
  /-- Raised by an engine step with `E.mode = 0b11`; "`E.mode` is never 0b11 here" (40_command.md R105). Safe. -/
  | engineModeReserved
  deriving DecidableEq, Repr

/-- Host programs the spec gives no meaning ("a model refuses it"), and instructions not modelled. -/
inductive Refusal where
  /-- Raised by an arm of `exec` for an instruction with no meaning yet. Safe. -/
  | notModelled (mnemonic : String)
  /-- Raised by a host access of the register window that is not a naturally aligned 32-bit access (10_state.md R24).
  Safe. -/
  | notAlignedWordAccess
  /-- Raised by a register access at an offset past the 32-byte window, which is no register of the block
  (10_state.md R23). Safe. -/
  | outsideWindow
  /-- Raised by an accepted START whose source or destination range holds a byte with side effects
  (20_memory.md R56). Safe. -/
  | sideEffectMemory
  /-- Raised by a host load or store of a device other than this block, whose behaviour the spec does not give. Safe. -/
  | hostDeviceAccess
  /-- Raised by a second host agent's write of an argument register inside the first one's programming
  (60_exceptions.md R192). Safe. -/
  | interleavedHosts
  deriving DecidableEq, Repr

/-- A platform on which every access is answered normally, with the window at a chosen base (the value is OPEN in
00_scope.md R7). DESIGN CHOICE, log entry 3. -/
def Platform.ordinary : Platform :=
  { base := 0xF0000000#32, faults := [], hangs := [], devices := [] }

/-- The machine after reset (10_state.md R40): every register field and every piece of hidden state is 0, memory lists
nothing, and nothing is scheduled. -/
def State.reset : State :=
  { ctrl := { mode := .mono, order := .msbFirst, ie := false }
    status := { busy := false, done := false, err := false, errcode := 0#4 }
    srcAddr := 0#32
    dstAddr := 0#32
    width := 0#32
    height := 0#32
    outlen := 0#32
    engine := { g := 0, len := 0, mode := .mono, order := .msbFirst }
    mem := []
    hung := false
    disturbed := false
    unsynced := []
    draws := 0
    platform := Platform.ordinary
    schedule := []
    results := [] }

end Sys2Proof.Machine
end

