-- ==== Sys2Proof/Machine/Flags.lean ====
section
/-! DEFINITION. The status flags: every way STATUS changes, the words a host read of CTRL and STATUS returns, and the
interrupt output (10_state.md R26, R27, R28, R34; 60_exceptions.md R180, R185). -/

namespace Sys2Proof

/-- The ERRCODE of a cause (60_exceptions.md R180). -/
def CmdError.code : CmdError → BitVec 4
  | .mode => 1#4
  | .dim => 2#4
  | .range => 3#4
  | .overlap => 4#4
  | .bus => 5#4

namespace Machine

/-- What a host read of CTRL returns: `{27'b0, IE, BIT_ORDER, MODE, 1'b0}` (10_state.md R32). -/
def Ctrl.toWord (c : Ctrl) : Word := ctrlFields false c.mode c.order c.ie

/-- What a host read of STATUS returns: `{24'b0, ERRCODE, 1'b0, ERR, DONE, BUSY}` (10_state.md R28). -/
def Status.toWord (st : Status) : Word :=
  0#24 ++ st.errcode ++ 0#1 ++ BitVec.ofBool st.err ++ BitVec.ofBool st.done ++ BitVec.ofBool st.busy

/-- STATUS after START has cleared the last command's report (40_command.md R100). -/
def Status.cleared (st : Status) : Status := { st with done := false, err := false, errcode := 0#4 }

/-- STATUS of an accepted command (40_command.md R100). -/
def Status.running (st : Status) : Status := { st with busy := true }

/-- STATUS at the completion step (40_command.md R106). -/
def Status.completed (st : Status) : Status := { st with busy := false, done := true }

/-- STATUS when a command is rejected or fails (60_exceptions.md R181, R182); BUSY is already 0 at a rejection. -/
def Status.failed (e : CmdError) (st : Status) : Status :=
  { st with busy := false, err := true, errcode := e.code }

/-- STATUS after a host write of `v`: DONE and ERR are write-1-to-clear, ERRCODE is cleared with ERR
(10_state.md R28). -/
def Status.acked (v : Word) (st : Status) : Status :=
  { busy := st.busy
    done := if v.getLsbD 1 then false else st.done
    err := if v.getLsbD 2 then false else st.err
    errcode := if v.getLsbD 2 then 0#4 else st.errcode }

/-- The interrupt output, a function of state (10_state.md R34, 60_exceptions.md R185). Its delivery to a processor is
the platform's (log entry 22). -/
def State.irq (s : State) : Bool := s.ctrl.ie && (s.status.done || s.status.err)

end Machine

end Sys2Proof
end

