-- ==== Sys2Proof/Machine/Ops.lean ====
section
/-! DEFINITION. The named operations over memory, the platform and the registers, and the one operation that ends a
command with an error, the block's analogue of taking an exception (60_exceptions.md R182, R186), with the
acknowledgement, its analogue of the return, beside it (R187). -/

namespace Sys2Proof

/-! ### Register names -/

/-- The register at a window offset (10_state.md R23). -/
def Reg.ofOffset (off : Nat) : Option Reg :=
  if off = 0x00 then some .ctrl
  else if off = 0x04 then some .status
  else if off = 0x08 then some .srcAddr
  else if off = 0x0C then some .dstAddr
  else if off = 0x10 then some .width
  else if off = 0x14 then some .height
  else if off = 0x18 then some .outlen
  else if off = 0x1C then some .rsvd
  else none

/-- Whether the register is one of the four argument registers (10_state.md R29). -/
def Reg.isArg : Reg → Bool
  | .srcAddr => true
  | .dstAddr => true
  | .width => true
  | .height => true
  | .ctrl => false
  | .status => false
  | .outlen => false
  | .rsvd => false

namespace Machine

/-! ### Memory (20_memory.md R50, R54): every access is one byte -/

/-- The byte at an address. The list is in rising order, so an entry past the address ends the search. -/
def Memory.read : Memory → Nat → Byte
  | [], _ => Config.unlistedByte
  | (b, v) :: m, a => if a < b then Config.unlistedByte else if a = b then v else Memory.read m a

/-- Memory with one byte stored, in canonical form again: storing what an unlisted address reads as unlists it. -/
def Memory.write : Memory → Nat → Byte → Memory
  | [], a, v => if v = Config.unlistedByte then [] else [(a, v)]
  | (b, w) :: m, a, v =>
    if a < b then (if v = Config.unlistedByte then (b, w) :: m else (a, v) :: (b, w) :: m)
    else if a = b then (if v = Config.unlistedByte then m else (a, v) :: m)
    else (b, w) :: Memory.write m a v

/-- Addresses rise strictly from `lo`, exist, and list no byte equal to what an unlisted address reads as. -/
def Memory.wfFrom : Nat → Memory → Bool
  | _, [] => true
  | lo, (a, v) :: m =>
    decide (lo ≤ a) && decide (a < Config.addrSpace) && decide (v ≠ Config.unlistedByte) && Memory.wfFrom (a + 1) m

/-- The canonical form of memory. -/
def Memory.wf (m : Memory) : Bool := Memory.wfFrom 0 m

/-- Memory with `n` bytes from `a` on each drawn freely, from draw `d` on (60_exceptions.md R182,
70_reset_and_hazards.md R201, 20_memory.md R67). -/
def Memory.drawBytes : Memory → (a n d : Nat) → Memory
  | m, _, 0, _ => m
  | m, a, n + 1, d => Memory.drawBytes (Memory.write m a (Config.freeByte d)) (a + 1) n (d + 1)

/-! ### Regions and the platform's answers (00_scope.md R7) -/

/-- The region holds the address. -/
def Region.has (r : Region) (a : Nat) : Bool := decide (r.lo ≤ a) && decide (a < r.lo + r.len)

/-- Two regions share an address. -/
def Region.meets (r q : Region) : Bool :=
  decide (0 < r.len) && decide (0 < q.len) && decide (r.lo < q.lo + q.len) && decide (q.lo < r.lo + r.len)

/-- The region holds the address for accesses of the kind. -/
def BusRegion.has (r : BusRegion) (a : Nat) (k : AccessKind) : Bool :=
  decide (r.kind = k) && decide (r.lo ≤ a) && decide (a < r.lo + r.len)

/-- `busFault(addr, kind)`: the access gets an error response (00_scope.md R7). -/
def Platform.busFault (p : Platform) (a : Nat) (k : AccessKind) : Bool := p.faults.any fun r => r.has a k

/-- `busHang(addr, kind)`: the access never receives a response (00_scope.md R7). -/
def Platform.busHang (p : Platform) (a : Nat) (k : AccessKind) : Bool := p.hangs.any fun r => r.has a k

/-- The register window at `BASE` (10_state.md R23). -/
def Platform.window (p : Platform) : Region := { lo := p.base.toNat, len := Config.WINDOW_BYTES }

/-- The window and the devices: the bytes with side effects (20_memory.md R56). -/
def Platform.sideEffects (p : Platform) : List Region := p.window :: p.devices

/-- The answer to a set of accesses, one of which would get an error response (`fault`) or never any (`hang`). When
both stand in one set their order is open (40_command.md R108, "in any order"), so `pick` decides. -/
def busAnswer (fault hang pick : Bool) : BusAnswer :=
  match fault, hang with
  | false, false => .ok
  | true, false => .busErr
  | false, true => .hang
  | true, true => if pick then .busErr else .hang

/-! ### Registers -/

/-- What a host read of a register returns (10_state.md R23, R25, R28, R32). -/
def State.readReg (s : State) : Reg → Word
  | .ctrl => s.ctrl.toWord
  | .status => s.status.toWord
  | .srcAddr => s.srcAddr
  | .dstAddr => s.dstAddr
  | .width => s.width
  | .height => s.height
  | .outlen => s.outlen
  | .rsvd => 0#32

def State.setCtrl (s : State) (c : Ctrl) : State := { s with ctrl := c }

def State.setStatus (s : State) (st : Status) : State := { s with status := st }

def State.setOutlen (s : State) (v : Word) : State := { s with outlen := v }

/-- The register takes the value; only argument registers are storage of this kind (10_state.md R29). -/
def State.setArg (s : State) (r : Reg) (v : Word) : State :=
  match r with
  | .srcAddr => { s with srcAddr := v }
  | .dstAddr => { s with dstAddr := v }
  | .width => { s with width := v }
  | .height => { s with height := v }
  | .ctrl => s
  | .status => s
  | .outlen => s
  | .rsvd => s

/-- A host write of an argument register: ignored while BUSY (10_state.md R29). -/
def State.writeArg (s : State) (r : Reg) (v : Word) : State :=
  if s.status.busy then s else s.setArg r v

/-! ### The end of a command -/

/-- `raise CmdError(e)`: STATUS reports the error and the command is over (00_scope.md R11, 60_exceptions.md R181,
R182). The block saves no address, changes no mode and no mask, and never moves the host's control (R186). -/
def raiseCmdError (e : CmdError) (s : State) : State := s.setStatus (s.status.failed e)

/-- The host's acknowledgement, a W1C write of STATUS (10_state.md R28, 60_exceptions.md R187). -/
def ackStatus (v : Word) (s : State) : State := s.setStatus (s.status.acked v)

/-- Every byte of the running command's destination range becomes a free value. -/
def State.drawDest (s : State) : State :=
  { s with mem := s.mem.drawBytes s.dstAddr.toNat s.engine.len s.draws, draws := s.draws + s.engine.len }

/-- ERR_BUS ends the running command: the destination range holds any values (60_exceptions.md R182). -/
def failBus (s : State) : State := { raiseCmdError .bus s.drawDest with disturbed := false }

end Machine

end Sys2Proof
end

