-- ==== Sys2Proof/Machine/Operands.lean ====
section
/-! DEFINITION. The operands of a command: the registers it reads at START, the sizes computed from them, the checks
on them, and the pixels and ranges they address (20_memory.md R51, R52; 30_encoding.md R73; 40_command.md R101, R102,
R103, R108). -/

namespace Sys2Proof

/-- The conversion a MODE selects; 0b11 selects none (10_state.md R26). -/
def Mode.conv? : Mode → Option Conv
  | .mono => some .mono
  | .gray8 => some .gray8
  | .gray2 => some .gray2
  | .reserved => none

/-- The MODE of a conversion (10_state.md R26). -/
def Conv.mode : Conv → Mode
  | .mono => .mono
  | .gray8 => .gray8
  | .gray2 => .gray2

/-- Bits per pixel of the output (40_command.md R102). -/
def Conv.bpp : Conv → Nat
  | .mono => 1
  | .gray8 => 8
  | .gray2 => 2

/-- Pixels per output byte (20_memory.md R52). -/
def Conv.group : Conv → Nat
  | .mono => Config.GROUP_MONO
  | .gray8 => Config.GROUP_GRAY8
  | .gray2 => Config.GROUP_GRAY2

/-- The output length in bytes of `n` pixels, `N*bpp/8` (40_command.md R102). -/
def outputLength (c : Conv) (n : Nat) : Nat := n * c.bpp / 8

/-- The checks at START, in order; the first that fails is reported (40_command.md R103, 60_exceptions.md R183). -/
def validate (mode : Mode) (n src dst : Nat) : Except CmdError Nat :=
  match mode.conv? with
  | none => .error .mode
  | some c =>
    if n % Config.DIM_MULTIPLE ≠ 0 then .error .dim
    else if Config.addrSpace < src + Config.BYTES_PER_PIXEL * n ∨ Config.addrSpace < dst + outputLength c n then
      .error .range
    else if 0 < n ∧ src < dst + outputLength c n ∧ dst < src + Config.BYTES_PER_PIXEL * n then .error .overlap
    else .ok (outputLength c n)

namespace Machine

/-- The pixel count `N = WIDTH * HEIGHT`, exact: below `2^(2*DIM_WIDTH_BITS)` (40_command.md R101). -/
def State.pixelCount (s : State) : Nat := s.width.toNat * s.height.toNat

/-- `validate` on the registers as they stand (40_command.md R100). -/
def State.validated (s : State) : Except CmdError Nat :=
  validate s.ctrl.mode s.pixelCount s.srcAddr.toNat s.dstAddr.toNat

/-- The source range `[SRC_ADDR, SRC_ADDR + 4*N)` (20_memory.md R51). -/
def State.srcRange (s : State) : Region :=
  { lo := s.srcAddr.toNat, len := Config.BYTES_PER_PIXEL * s.pixelCount }

/-- The destination range `[DST_ADDR, DST_ADDR + n)` of an output of `n` bytes (20_memory.md R52). -/
def State.dstRange (s : State) (n : Nat) : Region := { lo := s.dstAddr.toNat, len := n }

/-- A command with `n` output bytes would access a byte with side effects (20_memory.md R56). -/
def State.touchesSideEffects (s : State) (n : Nat) : Bool :=
  s.platform.sideEffects.any fun r => s.srcRange.meets r || (s.dstRange n).meets r

/-- The address of byte R of pixel `i` of a raster (20_memory.md R51). -/
def pixelAddr (src i : Nat) : Nat := src + Config.BYTES_PER_PIXEL * i

/-- The colour channels of pixel `i` of the raster at `src` (20_memory.md R51, 40_command.md R108). -/
def readPixel (m : Memory) (src i : Nat) : Pixel :=
  { r := m.read (pixelAddr src i), g := m.read (pixelAddr src i + 1), b := m.read (pixelAddr src i + 2) }

/-- One of the reads of the pixel at `a` gets the answer `hit` stands for; the alpha byte counts only when it is read
(40_command.md R108). -/
def pixelHits (hit : Nat → Bool) (a : Nat) (alphaRead : Bool) : Bool :=
  hit a || hit (a + 1) || hit (a + 2) || (hit (a + 3) && alphaRead)

end Machine

end Sys2Proof
end

