-- ==== Sys2Proof/Machine/Pack.lean ====
section
/-! DEFINITION. The packer with bit-order control (40_command.md R107). -/

namespace Sys2Proof.Machine

/-- The accumulator loop of MSB-first packing: each value is ORed in, and the accumulator is shifted left by the width
except after the last value. -/
def packMsb (w : Nat) (acc : Byte) : List Byte → Byte
  | [] => acc
  | [v] => acc ||| v
  | v :: u :: vs => packMsb w ((acc ||| v) <<< w) (u :: vs)

/-- The sum of `v[j] << (w*j)` of LSB-first packing, from index `j` on. -/
def packLsb (w j : Nat) : List Byte → Byte
  | [] => 0#8
  | v :: vs => (v <<< (w * j)) + packLsb w (j + 1) vs

/-- `PACK(w, order, v)` (40_command.md R107). LSB-first runs too: DESIGN CHOICE, safe (log entry 21). -/
def pack (w : Nat) (order : BitOrder) (vs : List Byte) : Byte :=
  match order with
  | .msbFirst => packMsb w 0#8 vs
  | .lsbFirst => packLsb w 0 vs

end Sys2Proof.Machine
end

