-- ==== Sys2Proof/Machine/Command.lean ====
section
/-! DEFINITION. What a write of CTRL does, shared by every instruction: acceptance and rejection of a command
(10_state.md R32; 40_command.md R100; 60_exceptions.md R181). -/

namespace Sys2Proof.Machine

/-- A rejected command: OUTLEN is 0 and STATUS reports the error; nothing else changes (60_exceptions.md R181). -/
def rejectCommand (e : CmdError) (s : State) : State := raiseCmdError e (s.setOutlen 0#32)

/-- An accepted command with `n` output bytes: OUTLEN, the engine's registers and BUSY are written, no memory is
accessed (40_command.md R100). The model also notes the destination range as one whose end the host has not seen. -/
def acceptCommand (n : Nat) (s : State) : State :=
  { s with
    outlen := BitVec.ofNat 32 n
    engine := { g := 0, len := n, mode := s.ctrl.mode, order := s.ctrl.order }
    status := s.status.running
    hung := false
    disturbed := false
    unsynced := { dst := s.dstAddr.toNat, len := n, old := s.mem } :: s.unsynced }

/-- `start_command()` on a state in which MODE, BIT_ORDER and IE are stored (40_command.md R100). A command accepted on
ranges with side-effect memory is refused (20_memory.md R56). DEDUCED, safe (log entry 11). -/
def startCommand (s : State) : Host.Outcome State Fault Refusal :=
  match (s.setStatus s.status.cleared).validated with
  | .error e => .next (rejectCommand e (s.setStatus s.status.cleared))
  | .ok n =>
    if s.touchesSideEffects n then .refused .sideEffectMemory
    else .next (acceptCommand n (s.setStatus s.status.cleared))

/-- A host write of CTRL with the given fields (10_state.md R32): while BUSY only IE is written; while idle the fields
are stored, and START = 1 starts a command. -/
def writeCtrl (start : Bool) (mode : Mode) (order : BitOrder) (ie : Bool) (s : State) :
    Host.Outcome State Fault Refusal :=
  if s.status.busy then .next (s.setCtrl { s.ctrl with ie := ie })
  else if start then startCommand (s.setCtrl { mode := mode, order := order, ie := ie })
  else .next (s.setCtrl { mode := mode, order := order, ie := ie })

end Sys2Proof.Machine
end

