-- ==== Sys2Proof/Machine/Control.lean ====
section
/-! DEFINITION. The CTRL writes that run no conversion: START with the reserved MODE and CTRL.SET (30_encoding.md R71,
R74; 60_exceptions.md R181; 10_state.md R32). -/

namespace Sys2Proof.Machine

/-- START with MODE = 0b11, rejected with ERR_MODE after the fields are stored (60_exceptions.md R180, R181). -/
def execReservedMode (order : BitOrder) (ie : Bool) (s : State) : Host.Outcome State Fault Refusal :=
  writeCtrl true .reserved order ie s

/-- `CTRL.SET`: a CTRL write with START = 0 (10_state.md R32, 40_command.md R114). -/
def execCtrlSet (mode : Mode) (order : BitOrder) (ie : Bool) (s : State) : Host.Outcome State Fault Refusal :=
  writeCtrl false mode order ie s

end Sys2Proof.Machine
end

