-- ==== Sys2Proof/Machine/Gray8.lean ====
section
/-! DEFINITION. CONV.GRAY8: its START and the output byte of a group (42_gray8.md R140, R141). -/

namespace Sys2Proof.Machine

/-- The gray-value unit, `(r + g + b + 1) div 3` on the exact sum (42_gray8.md R141). -/
def gray8 (p : Pixel) : Byte := BitVec.ofNat 8 ((p.r.toNat + p.g.toNat + p.b.toNat + 1) / 3)

/-- Output byte `g` of CONV.GRAY8; the bit order has no effect (42_gray8.md R140). -/
def groupByteGray8 (m : Memory) (src g : Nat) : Byte := gray8 (readPixel m src (Config.GROUP_GRAY8 * g))

/-- `CONV.GRAY8`: a CTRL write with START = 1 and MODE = 0b01 (42_gray8.md R140). -/
def execConvGray8 (order : BitOrder) (ie : Bool) (s : State) : Host.Outcome State Fault Refusal :=
  writeCtrl true .gray8 order ie s

end Sys2Proof.Machine
end

