-- ==== Sys2Proof/Machine/Gray2.lean ====
section
/-! DEFINITION. CONV.GRAY2: its START and the output byte of a group (43_gray2.md R160, R161). -/

namespace Sys2Proof.Machine

/-- The quantization unit: a gray value to a level 0 (black) to 3 (white), every comparison strict
(43_gray2.md R161). -/
def quant2 (y : Byte) : Byte :=
  if Config.Q_T3 < y.toNat then 3#8
  else if Config.Q_T2 < y.toNat then 2#8
  else if Config.Q_T1 < y.toNat then 1#8
  else 0#8

/-- Output byte `g` of CONV.GRAY2 (43_gray2.md R160). -/
def groupByteGray2 (m : Memory) (src g : Nat) (order : BitOrder) : Byte :=
  pack 2 order ((List.range Config.GROUP_GRAY2).map fun j =>
    quant2 (gray8 (readPixel m src (Config.GROUP_GRAY2 * g + j))))

/-- `CONV.GRAY2`: a CTRL write with START = 1 and MODE = 0b10 (43_gray2.md R160). -/
def execConvGray2 (order : BitOrder) (ie : Bool) (s : State) : Host.Outcome State Fault Refusal :=
  writeCtrl true .gray2 order ie s

end Sys2Proof.Machine
end

