-- ==== Sys2Proof/Machine/Mono.lean ====
section
/-! DEFINITION. CONV.MONO: its START and the output byte of a group (41_mono.md R120, R121). -/

namespace Sys2Proof.Machine

/-- The black/white classifier: 1 is black, 0 white (41_mono.md R121). -/
def black (p : Pixel) : Byte :=
  if p.r.toNat < Config.T_MONO ∨ p.g.toNat < Config.T_MONO ∨ p.b.toNat < Config.T_MONO then 1#8 else 0#8

/-- Output byte `g` of CONV.MONO (41_mono.md R120). -/
def groupByteMono (m : Memory) (src g : Nat) (order : BitOrder) : Byte :=
  pack 1 order ((List.range Config.GROUP_MONO).map fun j => black (readPixel m src (Config.GROUP_MONO * g + j)))

/-- `CONV.MONO`: a CTRL write with START = 1 and MODE = 0b00 (41_mono.md R120). -/
def execConvMono (order : BitOrder) (ie : Bool) (s : State) : Host.Outcome State Fault Refusal :=
  writeCtrl true .mono order ie s

end Sys2Proof.Machine
end

