-- ==== Sys2Proof/Machine/Dispatch.lean ====
section
/-! DEFINITION. The meaning of each instruction: one arm per row of spec/opcode_table.json. -/

namespace Sys2Proof.Machine

def exec (i : Instr) (s : State) : Host.Outcome State Fault Refusal :=
  match i with
  | .convMono order ie => Sys2Proof.Machine.execConvMono order ie s
  | .convGray8 order ie => Sys2Proof.Machine.execConvGray8 order ie s
  | .convGray2 order ie => Sys2Proof.Machine.execConvGray2 order ie s
  | .reservedMode order ie => Sys2Proof.Machine.execReservedMode order ie s
  | .ctrlSet mode order ie => Sys2Proof.Machine.execCtrlSet mode order ie s

end Sys2Proof.Machine
end

