-- ==== Sys2Proof/Machine/Engine.lean ====
section
/-! DEFINITION. The engine's steps: a group of pixels, or the completion of the command (40_command.md R104, R105,
R106, R108). -/

namespace Sys2Proof.Machine

/-- Output byte `g` of a conversion of the raster at `src` (40_command.md R105). -/
def groupByte (c : Conv) (m : Memory) (src g : Nat) (order : BitOrder) : Byte :=
  match c with
  | .mono => groupByteMono m src g order
  | .gray8 => groupByteGray8 m src g
  | .gray2 => groupByteGray2 m src g order

/-- How many free bits one group step may draw: one for the alpha byte of each of its pixels, at most 8, then one for
the order of its reads and one for its write. -/
def drawsPerGroup : Nat := 10

/-- One of the reads of group `g` gets the answer `hit` stands for; whether an alpha byte is read is drawn for each
pixel (40_command.md R108, 93_implementation_defined.md I13). DEDUCED, safe (log entry 19). -/
def groupHits (hit : Nat → Bool) (c : Conv) (src g draws : Nat) : Bool :=
  (List.range c.group).any fun j =>
    pixelHits hit (pixelAddr src (c.group * g + j)) (Config.freeBit (draws + j))

/-- What the platform answers to the reads of the group the engine is at. -/
def State.readAnswer (s : State) (c : Conv) : BusAnswer :=
  busAnswer (groupHits (s.platform.busFault · .rd) c s.srcAddr.toNat s.engine.g s.draws)
    (groupHits (s.platform.busHang · .rd) c s.srcAddr.toNat s.engine.g s.draws) (Config.freeBit (s.draws + 8))

/-- The address of the output byte the engine is at (20_memory.md R52). -/
def State.outAddr (s : State) : Nat := s.dstAddr.toNat + s.engine.g

/-- What the platform answers to the write of the output byte the engine is at. -/
def State.writeAnswer (s : State) : BusAnswer :=
  busAnswer (s.platform.busFault s.outAddr .wr) (s.platform.busHang s.outAddr .wr) (Config.freeBit (s.draws + 9))

/-- The free bits of a group step are drawn. -/
def State.drawGroup (s : State) : State := { s with draws := s.draws + drawsPerGroup }

/-- Output byte `g` is stored and the engine goes on to the next group (40_command.md R105). -/
def storeGroup (c : Conv) (s : State) : State :=
  { s with
    mem := s.mem.write s.outAddr (groupByte c s.mem s.srcAddr.toNat s.engine.g s.engine.order)
    engine := { s.engine with g := s.engine.g + 1 } }

/-- An access that never gets a response: the engine stays BUSY and takes no further step (40_command.md R104). -/
def hangEngine (s : State) : State := { s with hung := true }

/-- A group of conversion `c` lies inside the address space, reads and write. -/
def State.groupInSpace (s : State) (c : Conv) : Bool :=
  decide (pixelAddr s.srcAddr.toNat (c.group * (s.engine.g + 1)) ≤ Config.addrSpace) &&
    decide (s.outAddr < Config.addrSpace)

/-- The group step of a conversion (40_command.md R105): its reads, then its write, the first bus error ending the
command (60_exceptions.md R182). Groups run in the reference order: DEDUCED (log entry 10). -/
def groupStepOf (c : Conv) (s : State) : Host.Outcome State Fault Refusal :=
  if s.groupInSpace c then
    match s.readAnswer c, s.writeAnswer with
    | .ok, .ok => .next (storeGroup c s).drawGroup
    | .ok, .busErr => .next (failBus s.drawGroup)
    | .ok, .hang => .next (hangEngine s.drawGroup)
    | .busErr, _ => .next (failBus s.drawGroup)
    | .hang, _ => .next (hangEngine s.drawGroup)
  else .fault .outsideAddressSpace

/-- `group_step()` (40_command.md R105). -/
def groupStep (s : State) : Host.Outcome State Fault Refusal :=
  match s.engine.mode.conv? with
  | some c => groupStepOf c s
  | none => .fault .engineModeReserved

/-- `complete()` (40_command.md R106). When the host wrote into the command's ranges, every destination byte now holds
any value (20_memory.md R67). -/
def completeStep (s : State) : State :=
  if s.disturbed then { s.drawDest with status := s.status.completed, disturbed := false }
  else { s with status := s.status.completed }

/-- The engine's turn: it has a step exactly when BUSY = 1, a group step when `E.g < E.L` and the completion step when
`E.g = E.L`, and none once an access of it got no response (40_command.md R104). -/
def engineTurn (s : State) : Host.Outcome State Fault Refusal :=
  if s.status.busy && !s.hung then
    if s.engine.g < s.engine.len then groupStep s
    else if s.engine.g = s.engine.len then .next (completeStep s)
    else .next s
  else .next s

end Sys2Proof.Machine
end

