-- ==== Sys2Proof/Machine/HostPort.lean ====
section
/-! DEFINITION. The host's side: register accesses, loads and stores of the shared memory, the reset input, and the
choice of the agent that steps next (10_state.md R23 to R32; 20_memory.md R54 to R67; 70_reset_and_hazards.md R200,
R201; 30_encoding.md R76). -/

namespace Sys2Proof.Machine

/-! ### Register accesses -/

/-- The register an access reaches: a naturally aligned 32-bit access inside the window, or a refusal
(10_state.md R23, R24). DEDUCED, safe (log entry 13). -/
def hostReg (off bytes : Nat) : Except Refusal Reg :=
  if bytes ≠ 4 ∨ off % 4 ≠ 0 then .error .notAlignedWordAccess
  else
    match Reg.ofOffset off with
    | some r => .ok r
    | none => .error .outsideWindow

/-- A host write of a register. CTRL takes a command word (30_encoding.md R70); STATUS is write-1-to-clear; the
argument registers are storage while idle; OUTLEN and the reserved offset ignore writes (10_state.md R25). -/
def writeReg (r : Reg) (v : Word) (s : State) : Host.Outcome State Fault Refusal :=
  match r with
  | .ctrl => exec (decodeWord v) s
  | .status => .next (ackStatus v s)
  | .srcAddr => .next (s.writeArg .srcAddr v)
  | .dstAddr => .next (s.writeArg .dstAddr v)
  | .width => .next (s.writeArg .width v)
  | .height => .next (s.writeArg .height v)
  | .outlen => .next s
  | .rsvd => .next s

/-- A host read of STATUS that shows BUSY = 0 makes every engine write visible to the host's later reads
(20_memory.md R60); no other read changes anything. -/
def noteRead (r : Reg) (s : State) : State :=
  if r = .status ∧ s.status.busy = false then { s with unsynced := [] } else s

def State.pushResult (s : State) (r : HostResult) : State := { s with results := r :: s.results }

/-- A host read of a register. -/
def readRegOp (r : Reg) (s : State) : State := (noteRead r s).pushResult (.word (s.readReg r))

/-- One round of `POLL`: the read, and when it does not match, an engine turn and the poll again
(30_encoding.md R76). DESIGN CHOICE (log entry 7). -/
def pollOp (r : Reg) (off : Nat) (mask val : Word) (s : State) : State :=
  if s.readReg r &&& mask = val then noteRead r s
  else { noteRead r s with schedule := .engine :: .host (.poll off mask val) :: s.schedule }

/-! ### Loads and stores of the shared memory -/

/-- Whether the transfer's destination range holds the address. -/
def Transfer.has (t : Transfer) (a : Nat) : Bool := decide (t.dst ≤ a) && decide (a < t.dst + t.len)

/-- The address is in the running command's source range. -/
def State.inSource (s : State) (a : Nat) : Bool := s.status.busy && s.srcRange.has a

/-- The address is in the running command's destination range. -/
def State.inDest (s : State) (a : Nat) : Bool := s.status.busy && (s.dstRange s.engine.len).has a

/-- The host has not yet seen the end of a command that writes the byte. A source byte of the running command is no
such byte: a host read of it returns what the host last stored (20_memory.md R67). -/
def State.unsettled (s : State) (a : Nat) : Bool :=
  !s.inSource a && (s.inDest a || s.unsynced.any fun t => t.has a)

/-- The final value of a byte: the output byte of its group while the command that writes it runs, else what memory
holds. -/
def State.finalByte (s : State) (a : Nat) : Byte :=
  match s.inDest a, s.engine.mode.conv? with
  | true, some c => groupByte c s.mem s.srcAddr.toNat (a - s.dstAddr.toNat) s.engine.order
  | true, none => s.mem.read a
  | false, _ => s.mem.read a

/-- The values a host load of an unsettled byte may return: its final value and its old values (20_memory.md R58). -/
def State.candidates (s : State) (a : Nat) : List Byte :=
  s.finalByte a :: (s.unsynced.filter fun t => t.has a).map fun t => t.old.read a

/-- One of the listed values, drawn freely. -/
def drawFrom (d : Nat) (vs : List Byte) : Byte := vs.getD (Config.freeIndex d % vs.length) (Config.freeByte d)

/-- What a host load returns of an unsettled byte: one of its candidates, or any value once the host has written into
the running command's ranges (20_memory.md R58, R67). -/
def State.unsettledByte (s : State) (a : Nat) : Byte :=
  if s.disturbed && s.inDest a then Config.freeByte s.draws else drawFrom s.draws (s.candidates a)

/-- A host load of one byte (log entries 4, 18). -/
def loadByte (a : Nat) (s : State) : State :=
  if s.unsettled a then
    { s.pushResult (.byte (s.unsettledByte a)) with draws := s.draws + 1 }
  else s.pushResult (.byte (s.mem.read a))

/-- A host store settles the byte for the host: an earlier command's writes have all landed when it ended
(40_command.md R106; 60_exceptions.md R182; 70_reset_and_hazards.md R201), so that no older value can be read again. -/
def Transfer.settle (a : Nat) (v : Byte) (t : Transfer) : Transfer :=
  if t.has a then { t with old := t.old.write a v } else t

/-- A host store of one byte, visible to the engine and to the host at once, whatever commands are unobserved:
DESIGN CHOICE, unsafe on a host that does not drain its stores (20_memory.md R59, log entry 9). A store into the running
command's ranges disturbs the command (R67). -/
def storeByte (a : Nat) (v : Byte) (s : State) : State :=
  { s with
    mem := s.mem.write a v
    unsynced := s.unsynced.map (Transfer.settle a v)
    disturbed := s.disturbed || s.inSource a || s.inDest a }

/-- Why a host byte access has no meaning in this model, if it has none: it reaches the register window with another
width than 32 bits (10_state.md R24), or another device. DEDUCED, safe (log entry 13). -/
def byteAccessRefusal (p : Platform) (a : Nat) : Option Refusal :=
  if p.window.has a then some .notAlignedWordAccess
  else if p.devices.any fun r => r.has a then some .hostDeviceAccess
  else none

/-! ### The reset input -/

/-- Reset: every register and the engine's hidden state take their reset values; memory is unchanged, but for the
destination range of a running command, which holds any values (10_state.md R40; 70_reset_and_hazards.md R200, R201).
What the host holds (its schedule, its results) and the platform stay. DEDUCED, safe (log entry 17). -/
def resetBlock (s : State) : State :=
  { (if s.status.busy then s.drawDest else s) with
    ctrl := State.reset.ctrl
    status := State.reset.status
    srcAddr := State.reset.srcAddr
    dstAddr := State.reset.dstAddr
    width := State.reset.width
    height := State.reset.height
    outlen := State.reset.outlen
    engine := State.reset.engine
    hung := false
    disturbed := false }

/-! ### One event -/

/-- One operation of the host. A second host agent's write of an argument register while the block is idle falls
inside the first one's programming and has no meaning (60_exceptions.md R192); its other writes act as any host's
(R189). DEDUCED, safe (log entry 12). -/
def hostStep (op : HostOp) (s : State) : Host.Outcome State Fault Refusal :=
  match op with
  | .regWrite off bytes v =>
    match hostReg off bytes with
    | .ok r => writeReg r v s
    | .error e => .refused e
  | .regRead off bytes =>
    match hostReg off bytes with
    | .ok r => .next (readRegOp r s)
    | .error e => .refused e
  | .poll off mask val =>
    match hostReg off 4 with
    | .ok r => .next (pollOp r off mask val s)
    | .error e => .refused e
  | .sb a v =>
    match byteAccessRefusal s.platform a.toNat with
    | some e => .refused e
    | none => .next (storeByte a.toNat v s)
  | .lb a =>
    match byteAccessRefusal s.platform a.toNat with
    | some e => .refused e
    | none => .next (loadByte a.toNat s)
  | .reset => .next (resetBlock s)
  | .secondHostWrite off v =>
    match hostReg off 4 with
    | .ok r => if r.isArg && !s.status.busy then .refused .interleavedHosts else writeReg r v s
    | .error e => .refused e

/-- One event: an engine turn or a host operation (00_scope.md R8). -/
def runEvent (e : Event) (s : State) : Host.Outcome State Fault Refusal :=
  match e with
  | .engine => engineTurn s
  | .host op => hostStep op s

end Sys2Proof.Machine
end

