-- ==== Sys2Proof/Machine/Step.lean ====
section
/-! DEFINITION. One step of the machine, and how a command word is given to it. -/

namespace Sys2Proof.Machine

/-- One step: the agent the schedule names first, or, when it names none, the engine (40_command.md R104). -/
def step (s : State) : Host.Outcome State Fault Refusal :=
  match s.schedule with
  | [] => engineTurn s
  | e :: rest => runEvent e { s with schedule := rest }

/-- The state whose next step is the host's write of the word `w` (its bits above `nbits` zero) to CTRL: the block
fetches nothing, a command is one CTRL write (10_state.md R21, 30_encoding.md R75). DESIGN CHOICE (log entry 8). -/
def State.withFetchWord (s : State) (nbits w : Nat) : State :=
  { s with schedule := .host (.regWrite 0x00 4 (BitVec.ofNat 32 (w % 2 ^ nbits))) :: s.schedule }

end Sys2Proof.Machine
end

