-- ==== Sys2Proof/Machine/HostProgram.lean ====
section
/-! DEFINITION. Host programs: the statements and pseudo-instructions of 30_encoding.md R76 and the events they
expand to. -/

namespace Sys2Proof.Machine

/-- A command mnemonic with its optional suffixes `.LSB` and `.IE` (30_encoding.md R76). -/
structure CmdForm where
  conv : Conv
  lsb : Bool
  ie : Bool
  deriving DecidableEq, Repr

/-- The assembler accepts the form: `.LSB` is "not accepted on `CONV.GRAY8`" (30_encoding.md R76). -/
def CmdForm.wf (f : CmdForm) : Bool := !(decide (f.conv = .gray8) && f.lsb)

/-- The instruction of a form (30_encoding.md R77). -/
def CmdForm.instr (f : CmdForm) : Instr :=
  match f.conv with
  | .mono => .convMono (BitOrder.ofBit f.lsb) f.ie
  | .gray8 => .convGray8 (BitOrder.ofBit f.lsb) f.ie
  | .gray2 => .convGray2 (BitOrder.ofBit f.lsb) f.ie

/-- A statement of a host program (30_encoding.md R76). -/
inductive Stmt where
  | w32 (off : Nat) (v : Word)
  | r32 (off : Nat)
  | poll (off : Nat) (mask val : Word)
  | sb (addr : Word) (v : Byte)
  | lb (addr : Word)
  | reset
  /-- A bare command mnemonic. -/
  | cmd (f : CmdForm)
  /-- `CONV.<form> src, dst, w, h`. -/
  | conv (f : CmdForm) (src dst w h : Word)
  | waitdone
  /-- `CTRL.SET m, o, ie`. -/
  | ctrlSet (m : Mode) (o : BitOrder) (ie : Bool)
  | ack
  deriving DecidableEq, Repr

/-- `W32 off, v`. -/
def writeWord (off : Nat) (v : Word) : Event := .host (.regWrite off 4 v)

/-- The offset is that of a word of the register window (10_state.md R23, R24). -/
def offsetWf (off : Nat) : Bool := decide (off % 4 = 0) && decide (off < Config.WINDOW_BYTES)

/-- The assembler accepts the statement. -/
def Stmt.wf : Stmt → Bool
  | .w32 off _ => offsetWf off
  | .r32 off => offsetWf off
  | .poll off _ _ => offsetWf off
  | .sb _ _ => true
  | .lb _ => true
  | .reset => true
  | .cmd f => f.wf
  | .conv f _ _ _ _ => f.wf
  | .waitdone => true
  | .ctrlSet _ _ _ => true
  | .ack => true

/-- The host operations a statement expands to (30_encoding.md R76). -/
def Stmt.expand : Stmt → List Event
  | .w32 off v => [writeWord off v]
  | .r32 off => [.host (.regRead off 4)]
  | .poll off mask val => [.host (.poll off mask val)]
  | .sb a v => [.host (.sb a v)]
  | .lb a => [.host (.lb a)]
  | .reset => [.host .reset]
  | .cmd f => [writeWord 0x00 (encode f.instr)]
  | .conv f src dst w h =>
    [writeWord 0x08 src, writeWord 0x0C dst, writeWord 0x10 w, writeWord 0x14 h, writeWord 0x00 (encode f.instr)]
  | .waitdone => [.host (.poll 0x04 0x1#32 0x0#32)]
  | .ctrlSet m o ie => [writeWord 0x00 (encode (.ctrlSet m o ie))]
  | .ack => [writeWord 0x04 0x6#32]

/-- The events of a host program, in program order. -/
def program (p : List Stmt) : List Event := p.flatMap Stmt.expand

end Sys2Proof.Machine
end

