-- ==== Sys2Proof/Safety.lean ====
section
/-! DEFINITION. What claims mean by a legal state, by the progress of a running command, and by a platform that answers
every access of a command. -/

namespace Sys2Proof.Machine

/-- The invariants of STATUS (10_state.md R27). -/
def Status.Legal (st : Status) : Prop :=
  (st.busy = true → st.done = false ∧ st.err = false ∧ st.errcode = 0#4) ∧
  (st.done = true → st.err = false) ∧
  (st.err = false → st.errcode = 0#4) ∧
  (st.err = true → 1 ≤ st.errcode.toNat ∧ st.errcode.toNat ≤ 5)

/-- What holds of the running command: its arguments are the registers' values, they passed the checks of
40_command.md R103, and the engine is inside its output. -/
structure State.Running (s : State) : Prop where
  mode : s.engine.mode = s.ctrl.mode
  order : s.engine.order = s.ctrl.order
  valid : s.validated = .ok s.engine.len
  outlen : s.outlen.toNat = s.engine.len
  inside : s.engine.g ≤ s.engine.len
  ordinary : s.touchesSideEffects s.engine.len = false
  transfer : s.unsynced.head?.map (fun t => (t.dst, t.len)) = some (s.dstAddr.toNat, s.engine.len)

/-- The invariant of the machine: memory is canonical, STATUS is legal, and while BUSY the command is a valid one. -/
structure State.Inv (s : State) : Prop where
  memWf : s.mem.wf = true
  oldWf : ∀ t ∈ s.unsynced, t.old.wf = true
  status : s.status.Legal
  running : s.status.busy = true → s.Running

/-- While a command runs and the host has kept off its ranges (20_memory.md R67), the source bytes are those of its
START and every output byte the engine is past holds its final value (20_memory.md R58, R61). -/
def State.Progress (s : State) : Prop :=
  s.status.busy = true → s.disturbed = false →
    ∀ c t, s.engine.mode.conv? = some c → s.unsynced.head? = some t →
      (∀ a, s.srcRange.has a = true → s.mem.read a = t.old.read a) ∧
      (∀ i, i < s.engine.g →
        s.mem.read (s.dstAddr.toNat + i) = groupByte c t.old s.srcAddr.toNat i s.engine.order)

/-- The instruction of a conversion (30_encoding.md R71). -/
def convInstr : Conv → BitOrder → Bool → Instr
  | .mono, o, ie => .convMono o ie
  | .gray8, o, ie => .convGray8 o ie
  | .gray2, o, ie => .convGray2 o ie

/-- The registers hold arguments a START of conversion `c` accepts, in the spec's own terms: a size divisible by 8, two
ranges that end inside the address space and share no byte (40_command.md R103), and ordinary memory under both
(20_memory.md R56). -/
structure State.Fits (s : State) (c : Conv) : Prop where
  dim : s.pixelCount % 8 = 0
  src : s.srcAddr.toNat + 4 * s.pixelCount ≤ 2 ^ 32
  dst : s.dstAddr.toNat + s.pixelCount * c.bpp / 8 ≤ 2 ^ 32
  apart : ∀ a, ¬(s.srcAddr.toNat ≤ a ∧ a < s.srcAddr.toNat + 4 * s.pixelCount ∧
    s.dstAddr.toNat ≤ a ∧ a < s.dstAddr.toNat + s.pixelCount * c.bpp / 8)
  ordinary : ∀ r ∈ s.platform.sideEffects, ∀ a, r.has a = true →
    ¬(s.srcAddr.toNat ≤ a ∧ a < s.srcAddr.toNat + 4 * s.pixelCount) ∧
    ¬(s.dstAddr.toNat ≤ a ∧ a < s.dstAddr.toNat + s.pixelCount * c.bpp / 8)

/-- A host write of `v` to CTRL is the START of a command that passes the checks (40_command.md R103) and one of whose
source or destination bytes has side effects (20_memory.md R56). -/
def State.StartTouchesSideEffects (s : State) (v : Word) : Prop :=
  s.status.busy = false ∧ v.getLsbD 0 = true ∧
  ∃ n, validate (decodeWord v).mode s.pixelCount s.srcAddr.toNat s.dstAddr.toNat = .ok n ∧
    ∃ r ∈ s.platform.sideEffects, ∃ a, r.has a = true ∧
      ((s.srcAddr.toNat ≤ a ∧ a < s.srcAddr.toNat + 4 * s.pixelCount) ∨
        (s.dstAddr.toNat ≤ a ∧ a < s.dstAddr.toNat + n))

/-- The platform answers normally every access a command of `n` output bytes makes with the registers as they stand. -/
def State.AnsweredFor (s : State) (n : Nat) : Prop :=
  (∀ a, s.srcAddr.toNat ≤ a → a < s.srcAddr.toNat + 4 * s.pixelCount →
    s.platform.busFault a .rd = false ∧ s.platform.busHang a .rd = false) ∧
  (∀ a, s.dstAddr.toNat ≤ a → a < s.dstAddr.toNat + n →
    s.platform.busFault a .wr = false ∧ s.platform.busHang a .wr = false)

/-- The address is a byte of the destination range of the command the engine holds. -/
def State.IsDest (s : State) (a : Nat) : Prop :=
  s.dstAddr.toNat ≤ a ∧ a < s.dstAddr.toNat + s.engine.len

/-- The red, green and blue channels of pixel `i` of the raster at SRC_ADDR (20_memory.md R51). -/
def State.chR (s : State) (i : Nat) : Nat := (s.mem.read (s.srcAddr.toNat + 4 * i + 0)).toNat
def State.chG (s : State) (i : Nat) : Nat := (s.mem.read (s.srcAddr.toNat + 4 * i + 1)).toNat
def State.chB (s : State) (i : Nat) : Nat := (s.mem.read (s.srcAddr.toNat + 4 * i + 2)).toNat

end Sys2Proof.Machine
end

