-- ==== Sys2Proof/Certificates/Slice0/Obligations.lean ====
section
/-! DEFINITION. The statements about the model, one definition each; OBLIGATIONS.json says which rules of spec/ they
formalise. Numbers of the spec (thresholds, sizes, `2^32`) are written out, not taken from the model's Config. -/

open Sys2Proof Sys2Proof.Machine

/-! ### Encoding -/

/-- 30_encoding.md R77: every CTRL value of the table is the encoding of its form and decodes to it. -/
def Obligations.SpecCtrlValuesEncodeAndDecode : Prop :=
  ∀ p ∈ [((0x01#32 : Word), Instr.convMono .msbFirst false), (0x09#32, .convMono .lsbFirst false),
      (0x11#32, .convMono .msbFirst true), (0x19#32, .convMono .lsbFirst true),
      (0x03#32, .convGray8 .msbFirst false), (0x13#32, .convGray8 .msbFirst true),
      (0x05#32, .convGray2 .msbFirst false), (0x0D#32, .convGray2 .lsbFirst false),
      (0x15#32, .convGray2 .msbFirst true), (0x1D#32, .convGray2 .lsbFirst true),
      (0x07#32, .reservedMode .msbFirst false), (0x0F#32, .reservedMode .lsbFirst false),
      (0x17#32, .reservedMode .msbFirst true), (0x1F#32, .reservedMode .lsbFirst true)],
    encode p.2 = p.1 ∧ decodeWord p.1 = p.2

/-- 30_encoding.md §1: decoding and encoding are inverse on every instruction and every word, but for the ignored bits
31:5. -/
def Obligations.DecodeAndEncodeAgreeOnEveryWord : Prop :=
  (∀ i : Instr, i.wf = true → decodeWord (encode i) = i ∧ ctrlWordWf (encode i) = true) ∧
  (∀ w : Word, encode (decodeWord w) = w &&& 0x1F#32) ∧
  (∀ w v : Word, w &&& 0x1F#32 = v &&& 0x1F#32 ↔ decodeWord w = decodeWord v)

/-- 30_encoding.md R71: the opcode map, on every word, and the IE-only write while BUSY. -/
def Obligations.DecodeFollowsTheOpcodeMap : Prop :=
  (∀ w : Word, ∃ o, (o = BitOrder.lsbFirst ↔ w.getLsbD 3 = true) ∧
    (w.extractLsb' 0 3 = 0b001#3 → decodeWord w = .convMono o (w.getLsbD 4)) ∧
    (w.extractLsb' 0 3 = 0b011#3 → decodeWord w = .convGray8 o (w.getLsbD 4)) ∧
    (w.extractLsb' 0 3 = 0b101#3 → decodeWord w = .convGray2 o (w.getLsbD 4)) ∧
    (w.extractLsb' 0 3 = 0b111#3 → decodeWord w = .reservedMode o (w.getLsbD 4)) ∧
    (w.getLsbD 0 = false → ∃ m, decodeWord w = .ctrlSet m o (w.getLsbD 4) ∧
      (m = .mono ↔ w.extractLsb' 1 2 = 0b00#2) ∧ (m = .gray8 ↔ w.extractLsb' 1 2 = 0b01#2) ∧
      (m = .gray2 ↔ w.extractLsb' 1 2 = 0b10#2) ∧ (m = .reserved ↔ w.extractLsb' 1 2 = 0b11#2))) ∧
  (∀ (w : Word) (s : State), s.status.busy = true →
    exec (decodeWord w) s = .next { s with ctrl := { s.ctrl with ie := w.getLsbD 4 } })

/-- The next step of a machine whose schedule begins with a CTRL write runs the decoded word, on the state whose
schedule has lost that event; a word placed by `withFetchWord` is such a write. -/
def Obligations.StepRunsTheDecodedCtrlWrite : Prop :=
  (∀ (s : State) (w : Word) (rest : List Event), s.schedule = .host (.regWrite 0x00 4 w) :: rest →
    step s = exec (decodeWord w) { s with schedule := rest }) ∧
  (∀ (s : State) (nbits w : Nat) (i : Instr), decodeTableWord nbits w = some i →
    step (s.withFetchWord nbits w) = exec i s)

/-! ### CTRL writes -/

/-- 10_state.md R32: a host write of `v` to CTRL, and a host read of CTRL. -/
def Obligations.CtrlWriteAndReadFollowTheRule : Prop :=
  ∀ (s : State) (v : Word), ∃ (m : Mode) (o : BitOrder), m.toBits = v.extractLsb' 1 2 ∧ o.toBit = v.getLsbD 3 ∧
    (s.status.busy = false → v.getLsbD 0 = false →
      hostStep (.regWrite 0x00 4 v) s =
        .next { s with ctrl := { mode := m, order := o, ie := v.getLsbD 4 } }) ∧
    (s.status.busy = false → v.getLsbD 0 = true →
      hostStep (.regWrite 0x00 4 v) s =
        startCommand { s with ctrl := { mode := m, order := o, ie := v.getLsbD 4 } }) ∧
    (s.status.busy = true →
      hostStep (.regWrite 0x00 4 v) s = .next { s with ctrl := { s.ctrl with ie := v.getLsbD 4 } }) ∧
    hostStep (.regRead 0x00 4) s =
      .next { s with results := .word (0#27 ++ BitVec.ofBool s.ctrl.ie ++ BitVec.ofBool s.ctrl.order.toBit ++
        s.ctrl.mode.toBits ++ 0#1) :: s.results }

/-- CTRL.SET while idle stores its three fields and changes nothing else, STATUS among the rest. -/
def Obligations.CtrlSetStoresItsFieldsAndNothingElse : Prop :=
  ∀ (s : State) (m : Mode) (o : BitOrder) (ie : Bool), s.status.busy = false →
    exec (.ctrlSet m o ie) s = .next { s with ctrl := { mode := m, order := o, ie := ie } }

/-- START with the reserved MODE while idle: the fields are stored, the last report is cleared, OUTLEN is 0 and STATUS
reads ERR with code 1; nothing else changes. -/
def Obligations.ReservedModeIsRejectedWithErrMode : Prop :=
  ∀ (s : State) (o : BitOrder) (ie : Bool), s.status.busy = false →
    exec (.reservedMode o ie) s =
      .next { s with
        ctrl := { mode := .reserved, order := o, ie := ie }
        status := { busy := false, done := false, err := true, errcode := 1#4 }
        outlen := 0#32 }

/-- Every instruction, while BUSY, is a CTRL write that changes IE alone. -/
def Obligations.EveryInstructionWhileBusyWritesIeAlone : Prop :=
  ∀ (i : Instr) (s : State), s.status.busy = true →
    exec i s = .next { s with ctrl := { s.ctrl with ie := i.ie } }

/-- The START of a conversion on arguments that fit: what it writes, and that it writes nothing else (no memory byte, no
argument register). `hung`, `disturbed` and `unsynced` are the model's own fields (log entries 4, 5, 6). -/
def Obligations.ConversionStartCompletes : Prop :=
  ∀ (c : Conv) (s : State) (o : BitOrder) (ie : Bool), s.status.busy = false → s.Fits c →
    exec (convInstr c o ie) s =
      .next { s with
        ctrl := { mode := c.mode, order := o, ie := ie }
        status := { busy := true, done := false, err := false, errcode := 0#4 }
        outlen := BitVec.ofNat 32 (s.pixelCount * c.bpp / 8)
        engine := { g := 0, len := s.pixelCount * c.bpp / 8, mode := c.mode, order := o }
        hung := false
        disturbed := false
        unsynced := { dst := s.dstAddr.toNat, len := s.pixelCount * c.bpp / 8, old := s.mem } :: s.unsynced }

/-- 40_command.md R103: the checks in order, and what an accepted command has passed. -/
def Obligations.ValidateReportsTheFirstFailingCheck : Prop :=
  ∀ (n src dst : Nat),
    validate .reserved n src dst = .error .mode ∧
    (∀ c : Conv,
      (n % 8 ≠ 0 → validate c.mode n src dst = .error .dim) ∧
      (n % 8 = 0 → 2 ^ 32 < src + 4 * n ∨ 2 ^ 32 < dst + n * c.bpp / 8 →
        validate c.mode n src dst = .error .range) ∧
      (n % 8 = 0 → src + 4 * n ≤ 2 ^ 32 → dst + n * c.bpp / 8 ≤ 2 ^ 32 →
        0 < n ∧ src < dst + n * c.bpp / 8 ∧ dst < src + 4 * n → validate c.mode n src dst = .error .overlap) ∧
      (n % 8 = 0 → src + 4 * n ≤ 2 ^ 32 → dst + n * c.bpp / 8 ≤ 2 ^ 32 →
        ¬(0 < n ∧ src < dst + n * c.bpp / 8 ∧ dst < src + 4 * n) →
          validate c.mode n src dst = .ok (n * c.bpp / 8))) ∧
    (∀ m k, validate m n src dst = .ok k →
      4 * n ≤ 2 ^ 32 ∧ n ≤ 2 ^ 30 ∧ k ≤ 2 ^ 30 ∧ src + 4 * n ≤ 2 ^ 32 ∧ dst + k ≤ 2 ^ 32 ∧
      ∀ a, ¬(src ≤ a ∧ a < src + 4 * n ∧ dst ≤ a ∧ a < dst + k))

/-- 60_exceptions.md R181: a rejected command's exact effects, for every instruction that starts a command. -/
def Obligations.RejectedStartHasExactlyTheseEffects : Prop :=
  ∀ (i : Instr) (s : State) (e : CmdError), s.status.busy = false → i.start = true →
    validate i.mode s.pixelCount s.srcAddr.toNat s.dstAddr.toNat = .error e →
    ∃ code : BitVec 4,
      ((e = .mode ∧ code = 1#4) ∨ (e = .dim ∧ code = 2#4) ∨ (e = .range ∧ code = 3#4) ∨
        (e = .overlap ∧ code = 4#4)) ∧
      exec i s =
        .next { s with
          ctrl := { mode := i.mode, order := i.order, ie := i.ie }
          status := { busy := false, done := false, err := true, errcode := code }
          outlen := 0#32 } ∧
      ∀ t, exec i s = .next t → t.irq = i.ie

/-- 20_memory.md §4: the START of a command that passes the checks but lies on a byte with side effects stops by name.
-/
def Obligations.StartOnSideEffectMemoryIsRefused : Prop :=
  ∀ (c : Conv) (s : State) (o : BitOrder) (ie : Bool) (n : Nat), s.status.busy = false →
    validate c.mode s.pixelCount s.srcAddr.toNat s.dstAddr.toNat = .ok n →
    (∃ r ∈ s.platform.sideEffects, ∃ a, r.has a = true ∧
      ((s.srcAddr.toNat ≤ a ∧ a < s.srcAddr.toNat + 4 * s.pixelCount) ∨
        (s.dstAddr.toNat ≤ a ∧ a < s.dstAddr.toNat + n))) →
    exec (convInstr c o ie) s = .refused .sideEffectMemory

/-- 40_command.md R102: the output length of each conversion, exact when `N mod 8 = 0`. -/
def Obligations.OutputLengthOfEachMode : Prop :=
  ∀ n : Nat, n % 8 = 0 →
    outputLength .mono n = n / 8 ∧ outputLength .gray8 n = n ∧ outputLength .gray2 n = n / 4 ∧
    ∀ c : Conv, 8 * outputLength c n = n * c.bpp ∧ outputLength c n = (n * c.bpp + 7) / 8

/-- 40_command.md §1: the pixel count is the exact product, and WIDTH and HEIGHT enter a START and the
engine's steps only through it. -/
def Obligations.PixelCountIsExactAndAllThatMatters : Prop :=
  (∀ s : State, s.pixelCount = s.width.toNat * s.height.toNat ∧ s.pixelCount ≤ (2 ^ 32 - 1) ^ 2 ∧
    (2 ^ 32 - 1) ^ 2 < 2 ^ 64) ∧
  (∀ (s : State) (w h : Word), w.toNat * h.toNat = s.pixelCount →
    (∀ i t, exec i s = .next t →
      exec i { s with width := w, height := h } = .next { t with width := w, height := h }) ∧
    (∀ t, engineTurn s = .next t →
      engineTurn { s with width := w, height := h } = .next { t with width := w, height := h }))

/-- 40_command.md R110: `N = 0` is accepted, on any platform and at any addresses, and completes at the engine's only
step with no access of memory. -/
def Obligations.EmptyCommandCompletesWithoutAccess : Prop :=
  ∀ (c : Conv) (s : State) (o : BitOrder) (ie : Bool), s.status.busy = false →
    (s.width = 0#32 ∨ s.height = 0#32) →
    ∃ t, exec (convInstr c o ie) s = .next t ∧ t.status.busy = true ∧ t.outlen = 0#32 ∧ t.engine.len = 0 ∧
      t.mem = s.mem ∧
      engineTurn t = .next { t with status := { busy := false, done := true, err := false, errcode := 0#4 } }

/-! ### The datapath units -/

/-- 41_mono.md R121: black exactly when a channel is below 150; black is 1, white 0. -/
def Obligations.BlackExactlyWhenAChannelIsBelow150 : Prop :=
  ∀ p : Pixel,
    (black p = 1#8 ↔ p.r.toNat < 150 ∨ p.g.toNat < 150 ∨ p.b.toNat < 150) ∧
    (black p = 0#8 ↔ 150 ≤ p.r.toNat ∧ 150 ≤ p.g.toNat ∧ 150 ≤ p.b.toNat)

/-- 42_gray8.md R141, R142: the gray value is `(s+1) div 3`, the one integer nearest to `s/3`; there is no tie. -/
def Obligations.GrayValueIsTheNearestIntegerToTheMean : Prop :=
  ∀ p : Pixel, ∃ s, s = p.r.toNat + p.g.toNat + p.b.toNat ∧ s ≤ 765 ∧
    (gray8 p).toNat = (s + 1) / 3 ∧
    2 * s < 6 * (gray8 p).toNat + 3 ∧ 6 * (gray8 p).toNat < 2 * s + 3 ∧
    ∀ n : Nat, 2 * s ≤ 6 * n + 3 → 6 * n ≤ 2 * s + 3 → n = (gray8 p).toNat

/-- 43_gray2.md R161: the four ranges of gray values and their levels. -/
def Obligations.QuantLevelsCoverTheFourRanges : Prop :=
  ∀ y : Byte,
    (y.toNat ≤ 64 → quant2 y = 0#8) ∧
    (65 ≤ y.toNat → y.toNat ≤ 128 → quant2 y = 1#8) ∧
    (129 ≤ y.toNat → y.toNat ≤ 192 → quant2 y = 2#8) ∧
    (193 ≤ y.toNat → quant2 y = 3#8)

/-- 40_command.md R107: where `PACK(w, order, v)` places each value, in both orders, for every width. -/
def Obligations.PackPlacesEveryValue : Prop :=
  ∀ (w : Nat) (vs : List Byte), w = 1 ∨ w = 2 ∨ w = 8 → vs.length = 8 / w → (∀ v ∈ vs, v.toNat < 2 ^ w) →
    ∀ j (h : j < vs.length),
      (pack w .msbFirst vs).toNat / 2 ^ (8 - w * (j + 1)) % 2 ^ w = (vs[j]).toNat ∧
      (pack w .lsbFirst vs).toNat / 2 ^ (w * j) % 2 ^ w = (vs[j]).toNat

/-- 41_mono.md §: pixel `8g + j` of the raster is bit `7 - j` (MSB-first) or `j` (LSB-first) of output byte `g`, and
the bit is 1 exactly when the pixel is black. -/
def Obligations.MonoByteHoldsOneBitPerPixel : Prop :=
  ∀ (m : Memory) (src g j : Nat) (black : Bool), j < 8 →
    black = decide ((m.read (src + 4 * (8 * g + j) + 0)).toNat < 150 ∨
      (m.read (src + 4 * (8 * g + j) + 1)).toNat < 150 ∨ (m.read (src + 4 * (8 * g + j) + 2)).toNat < 150) →
    (groupByteMono m src g .msbFirst).getLsbD (7 - j) = black ∧
    (groupByteMono m src g .lsbFirst).getLsbD j = black

/-- 43_gray2.md §: the level of pixel `4g + j` is the field of bits `7 - 2j .. 6 - 2j` (MSB-first) or
`2j + 1 .. 2j` (LSB-first) of output byte `g`. -/
def Obligations.Gray2ByteHoldsOneLevelPerPixel : Prop :=
  ∀ (m : Memory) (src g j y level : Nat), j < 4 →
    y = ((m.read (src + 4 * (4 * g + j) + 0)).toNat + (m.read (src + 4 * (4 * g + j) + 1)).toNat +
      (m.read (src + 4 * (4 * g + j) + 2)).toNat + 1) / 3 →
    level = (if 192 < y then 3 else if 128 < y then 2 else if 64 < y then 1 else 0) →
    (groupByteGray2 m src g .msbFirst).toNat / 2 ^ (6 - 2 * j) % 4 = level ∧
    (groupByteGray2 m src g .lsbFirst).toNat / 2 ^ (2 * j) % 4 = level

/-- 41_mono.md R122, 42_gray8.md R143, 43_gray2.md R163: output lengths, and every output byte of an all-white and of an
all-black raster of `n` pixels, in either bit order. -/
def Obligations.UniformRastersGiveUniformBytes : Prop :=
  ∀ (m : Memory) (src n : Nat) (o : BitOrder), n % 8 = 0 →
    outputLength .mono n = n / 8 ∧ outputLength .gray8 n = n ∧ outputLength .gray2 n = n / 4 ∧
    ((∀ i, i < n → readPixel m src i = { r := 255#8, g := 255#8, b := 255#8 }) →
      (∀ g, g < n / 8 → groupByteMono m src g o = 0x00#8) ∧
      (∀ g, g < n → groupByteGray8 m src g = 0xFF#8) ∧
      (∀ g, g < n / 4 → groupByteGray2 m src g o = 0xFF#8)) ∧
    ((∀ i, i < n → readPixel m src i = { r := 0#8, g := 0#8, b := 0#8 }) →
      (∀ g, g < n / 8 → groupByteMono m src g o = 0xFF#8) ∧
      (∀ g, g < n → groupByteGray8 m src g = 0x00#8) ∧
      (∀ g, g < n / 4 → groupByteGray2 m src g o = 0x00#8))

/-- 43_gray2.md §: the single pass gives what two passes over an 8-bit intermediate would. -/
def Obligations.Gray2EqualsTheTwoPassConversion : Prop :=
  ∀ (m : Memory) (src g : Nat) (o : BitOrder),
    groupByteGray2 m src g o =
      pack 2 o [quant2 (groupByteGray8 m src (4 * g + 0)), quant2 (groupByteGray8 m src (4 * g + 1)),
        quant2 (groupByteGray8 m src (4 * g + 2)), quant2 (groupByteGray8 m src (4 * g + 3))]

/-! ### The engine -/

/-- 40_command.md §2: without a BUSY command the engine has no step, and with one it has a step that changes the state.
That a hung engine has none is log entry 5 (DEDUCED), and that an empty schedule gives the engine its turn is log entry 7
(DESIGN CHOICE). -/
def Obligations.EngineStepsExactlyWhileBusy : Prop :=
  (∀ s : State, s.schedule = [] → step s = engineTurn s) ∧
  (∀ s : State, s.status.busy = false → engineTurn s = .next s) ∧
  (∀ s : State, s.hung = true → engineTurn s = .next s) ∧
  (∀ s : State, s.Inv → s.status.busy = true → s.hung = false → ∃ t, engineTurn s = .next t ∧ t ≠ s)

/-- A group step whose accesses are all answered stores the output byte, moves to the next group and changes nothing
else; `draws` is the model's own counter (log entry 2). -/
def Obligations.GroupStepStoresOneByte : Prop :=
  ∀ (s : State) (c : Conv), s.Inv → s.status.busy = true → s.hung = false → s.engine.g < s.engine.len →
    s.engine.mode = c.mode → s.AnsweredFor s.engine.len →
    ∃ t, engineTurn s = .next t ∧
      t = { s with
        mem := t.mem
        draws := t.draws
        engine := { s.engine with g := s.engine.g + 1 } } ∧
      t.mem.read (s.dstAddr.toNat + s.engine.g) =
        groupByte c s.mem s.srcAddr.toNat s.engine.g s.engine.order ∧
      ∀ a, a ≠ s.dstAddr.toNat + s.engine.g → t.mem.read a = s.mem.read a

/-- 60_exceptions.md R182: when a read or the write of a group step gets an error response, the command ends in that
step; the destination range alone may change, and the engine makes no further access. An error response to a colour
read or to the write, in a group none of whose accesses hangs, is such a case. `draws` and `disturbed` are the model's
own (log entries 2, 6). -/
def Obligations.BusErrorEndsTheCommand : Prop :=
  ∀ (s : State) (c : Conv), s.Inv → s.status.busy = true → s.hung = false → s.engine.g < s.engine.len →
    s.engine.mode = c.mode →
    ((s.readAnswer c = .busErr ∨ (s.readAnswer c = .ok ∧ s.writeAnswer = .busErr)) →
      ∃ t, engineTurn s = .next t ∧
        t = { s with
          mem := t.mem
          draws := t.draws
          disturbed := false
          status := { busy := false, done := false, err := true, errcode := 5#4 } } ∧
        (∀ a, ¬s.IsDest a → t.mem.read a = s.mem.read a) ∧
        engineTurn t = .next t) ∧
    ((∀ a k, s.platform.busHang a k = false) →
      ((∃ j ch, j < c.group ∧ ch < 3 ∧
          s.platform.busFault (s.srcAddr.toNat + 4 * (c.group * s.engine.g + j) + ch) .rd = true) ∨
        s.platform.busFault (s.dstAddr.toNat + s.engine.g) .wr = true) →
      s.readAnswer c = .busErr ∨ (s.readAnswer c = .ok ∧ s.writeAnswer = .busErr))

/-- 40_command.md §2: when the only error responses under a command are on alpha bytes, its group step either stores the
output byte or ends the command with ERR_BUS. -/
def Obligations.AlphaFaultMayOrMayNotEndTheCommand : Prop :=
  ∀ (s : State) (c : Conv), s.Inv → s.status.busy = true → s.hung = false → s.engine.g < s.engine.len →
    s.engine.mode = c.mode → (∀ a k, s.platform.busHang a k = false) →
    (∀ a, s.IsDest a → s.platform.busFault a .wr = false) →
    (∀ i ch, i < s.pixelCount → ch < 3 → s.platform.busFault (s.srcAddr.toNat + 4 * i + ch) .rd = false) →
    ∃ t, engineTurn s = .next t ∧
      ((t.status = s.status ∧ t.engine.g = s.engine.g + 1 ∧
          t.mem.read (s.dstAddr.toNat + s.engine.g) =
            groupByte c s.mem s.srcAddr.toNat s.engine.g s.engine.order) ∨
        t.status = { busy := false, done := false, err := true, errcode := 5#4 })

/-- 40_command.md §2: a read of the group that never gets a response, or a write that never does after reads that do,
hangs the engine and changes nothing of the spec's state; a colour byte or the output byte without a response, in a group
none of whose accesses gets an error response, is such a case. A hung command stays BUSY with no DONE, no ERR and its
engine where it was through every step but a reset. `hung` and `draws` are the model's own (log entries 5, 2). -/
def Obligations.HangEndsOnlyAtReset : Prop :=
  (∀ (s : State) (c : Conv), s.Inv → s.status.busy = true → s.hung = false → s.engine.g < s.engine.len →
    s.engine.mode = c.mode →
    ((s.readAnswer c = .hang ∨ (s.readAnswer c = .ok ∧ s.writeAnswer = .hang)) →
      ∃ t, engineTurn s = .next t ∧ t = { s with hung := true, draws := t.draws }) ∧
    ((∀ a, s.srcRange.has a = true → s.platform.busFault a .rd = false) →
      s.platform.busFault (s.dstAddr.toNat + s.engine.g) .wr = false →
      ((∃ j ch, j < c.group ∧ ch < 3 ∧
          s.platform.busHang (s.srcAddr.toNat + 4 * (c.group * s.engine.g + j) + ch) .rd = true) ∨
        s.platform.busHang (s.dstAddr.toNat + s.engine.g) .wr = true) →
      s.readAnswer c = .hang ∨ (s.readAnswer c = .ok ∧ s.writeAnswer = .hang))) ∧
  (∀ s t : State, s.Inv → s.status.busy = true → s.hung = true → step s = .next t →
    s.schedule.head? ≠ some (.host .reset) →
    t.status = s.status ∧ t.hung = true ∧ t.engine = s.engine)

/-- 40_command.md R106: the completion step. When the host has kept off the command's ranges it writes STATUS alone,
and, with the progress that `StepKeepsTheProgress` keeps, the whole destination range then holds the conversion of the
source bytes at START (`old` is memory at START, log entry 4). -/
def Obligations.CompletionStepReportsDone : Prop :=
  ∀ (s : State), s.Inv → s.status.busy = true → s.hung = false → s.engine.g = s.engine.len →
    (∃ t, engineTurn s = .next t ∧ t.status = { busy := false, done := true, err := false, errcode := 0#4 } ∧
      t.irq = s.ctrl.ie ∧ t.outlen = s.outlen ∧ t.engine = s.engine ∧
      ∀ a, ¬s.IsDest a → t.mem.read a = s.mem.read a) ∧
    (s.disturbed = false →
      engineTurn s = .next { s with status := { busy := false, done := true, err := false, errcode := 0#4 } }) ∧
    (s.Progress → s.disturbed = false → ∀ c tr, s.engine.mode = c.mode → s.unsynced.head? = some tr →
      ∀ i, i < s.engine.len →
        s.mem.read (s.dstAddr.toNat + i) = groupByte c tr.old s.srcAddr.toNat i s.engine.order)

/-- 20_memory.md §4: an engine turn changes no byte outside the running command's destination range, no argument
register, no CTRL field and no OUTLEN. -/
def Obligations.EngineChangesOnlyTheDestination : Prop :=
  ∀ s t : State, s.Inv → engineTurn s = .next t →
    (∀ a, ¬(s.status.busy = true ∧ s.IsDest a) → t.mem.read a = s.mem.read a) ∧
    t.ctrl = s.ctrl ∧ t.srcAddr = s.srcAddr ∧ t.dstAddr = s.dstAddr ∧ t.width = s.width ∧ t.height = s.height ∧
    t.outlen = s.outlen ∧ t.unsynced = s.unsynced ∧ t.platform = s.platform ∧ t.schedule = s.schedule ∧
    t.results = s.results

/-! ### Invariants -/

/-- The state after reset meets the invariant (its memory lists nothing and no command runs). -/
def Obligations.ResetMeetsTheInvariant : Prop := State.reset.Inv ∧ State.reset.Progress

/-- Every step keeps the invariant: canonical memory, the legal STATUS combinations of 10_state.md R27, and a running
command that passed the checks, with its arguments and mode those of the registers. -/
def Obligations.StepKeepsTheInvariant : Prop :=
  ∀ s t : State, s.Inv → step s = .next t → t.Inv

/-- Every step keeps the progress of a running command: source bytes as at START, and every output byte the engine is
past final, whatever the host does outside the command's ranges (20_memory.md §6). -/
def Obligations.StepKeepsTheProgress : Prop :=
  ∀ s t : State, s.Inv → s.Progress → step s = .next t → t.Progress

/-- 10_state.md §4: the combinations of BUSY, DONE, ERR and ERRCODE stay legal through every step. -/
def Obligations.StatusCombinationsStayLegal : Prop :=
  ∀ s t : State, s.Inv → step s = .next t →
    (t.status.busy = true → t.status.done = false ∧ t.status.err = false ∧ t.status.errcode = 0#4) ∧
    (t.status.done = true → t.status.err = false) ∧
    (t.status.err = false → t.status.errcode = 0#4) ∧
    (t.status.err = true → 1 ≤ t.status.errcode.toNat ∧ t.status.errcode.toNat ≤ 5)

/-- No step from a state that meets the invariant faults: the engine never leaves the address space and never runs the
reserved mode. -/
def Obligations.NoStepFaults : Prop :=
  ∀ (s : State) (f : Fault), s.Inv → step s ≠ .fault f

/-- Which steps refuse: none of the engine's, and of the host's only those the spec gives no meaning. A START refuses
only when its command passes the checks and one of its bytes has side effects. The places of the refusals are log entries
11, 12 and 13. -/
def Obligations.OnlyMeaninglessHostAccessesRefuse : Prop :=
  ∀ (s : State) (r : Refusal), step s = .refused r →
    ∃ op rest, s.schedule = .host op :: rest ∧
      ((∃ off bytes v, op = .regWrite off bytes v ∧
          ((r = .notAlignedWordAccess ∧ (bytes ≠ 4 ∨ off % 4 ≠ 0)) ∨ (r = .outsideWindow ∧ 32 ≤ off) ∨
            (r = .sideEffectMemory ∧ bytes = 4 ∧ off = 0 ∧ s.StartTouchesSideEffects v))) ∨
        (∃ off bytes, op = .regRead off bytes ∧
          ((r = .notAlignedWordAccess ∧ (bytes ≠ 4 ∨ off % 4 ≠ 0)) ∨ (r = .outsideWindow ∧ 32 ≤ off))) ∨
        (∃ off mask val, op = .poll off mask val ∧
          ((r = .notAlignedWordAccess ∧ off % 4 ≠ 0) ∨ (r = .outsideWindow ∧ 32 ≤ off))) ∨
        (∃ a, ((∃ v, op = .sb a v) ∨ op = .lb a) ∧
          ((r = .notAlignedWordAccess ∧ s.platform.window.has a.toNat = true) ∨
            (r = .hostDeviceAccess ∧ ∃ d ∈ s.platform.devices, d.has a.toNat = true))) ∨
        (∃ off v, op = .secondHostWrite off v ∧
          ((r = .notAlignedWordAccess ∧ off % 4 ≠ 0) ∨ (r = .outsideWindow ∧ 32 ≤ off) ∨
            (r = .interleavedHosts ∧ 0x08 ≤ off ∧ off ≤ 0x14 ∧ s.status.busy = false) ∨
            (r = .sideEffectMemory ∧ off = 0 ∧ s.StartTouchesSideEffects v))))

/-- 20_memory.md §6: while a command runs, no step but its end changes the arguments the engine runs with. -/
def Obligations.RunningArgumentsNeverChange : Prop :=
  ∀ s t : State, s.Inv → step s = .next t → s.status.busy = true → t.status.busy = true →
    t.srcAddr = s.srcAddr ∧ t.dstAddr = s.dstAddr ∧ t.width = s.width ∧ t.height = s.height ∧
    t.ctrl.mode = s.ctrl.mode ∧ t.ctrl.order = s.ctrl.order ∧ t.outlen = s.outlen ∧
    t.engine.len = s.engine.len ∧ t.engine.mode = s.engine.mode ∧ t.engine.order = s.engine.order ∧
    s.engine.g ≤ t.engine.g ∧ t.engine.g ≤ s.engine.g + 1

/-- 10_state.md §4: DONE rises only at a completion step; ERR rises only at a rejected START or at a bus error of a
running command. The engine's turn is the step of an empty schedule too (log entry 7). -/
def Obligations.DoneAndErrRiseOnlyAtACommandsEnd : Prop :=
  ∀ s t : State, s.Inv → step s = .next t →
    (s.status.done = false → t.status.done = true →
      (s.schedule = [] ∨ ∃ rest, s.schedule = .engine :: rest) ∧
      s.status.busy = true ∧ s.hung = false ∧ s.engine.g = s.engine.len ∧ t.status.busy = false) ∧
    (s.status.err = false → t.status.err = true →
      ((s.schedule = [] ∨ ∃ rest, s.schedule = .engine :: rest) ∧
        t.status.errcode = 5#4 ∧ s.status.busy = true ∧ s.engine.g < s.engine.len ∧ t.status.busy = false) ∨
      ((∃ v rest, (s.schedule = .host (.regWrite 0x00 4 v) :: rest ∨
          s.schedule = .host (.secondHostWrite 0x00 v) :: rest) ∧ v.getLsbD 0 = true) ∧
        1 ≤ t.status.errcode.toNat ∧ t.status.errcode.toNat ≤ 4 ∧ s.status.busy = false ∧ t.mem = s.mem ∧
        t.outlen = 0#32))

/-! ### Whole commands -/

/-- 70_reset_and_hazards.md §4, 40_command.md §2: a command just started, left alone, on a platform that answers its
accesses, takes exactly `L + 1` engine steps; it then reports DONE, every output byte holds its group's byte, every
other byte and register is as before. That the empty schedule gives the engine its turns is log entry 7. -/
def Obligations.CommandTakesLengthPlusOneSteps : Prop :=
  ∀ (s : State) (c : Conv), s.Inv → s.status.busy = true → s.hung = false → s.disturbed = false →
    s.engine.g = 0 → s.engine.mode = c.mode → s.schedule = [] → s.AnsweredFor s.engine.len →
    (∀ k, k ≤ s.engine.len → ∃ t, Host.Core.run Sys2Proof.core k s = .next t ∧ t.status = s.status ∧ t.engine.g = k) ∧
    ∃ t : State, Host.Core.run Sys2Proof.core (s.engine.len + 1) s = .next t ∧
      t = { s with
        mem := t.mem
        draws := t.draws
        status := { busy := false, done := true, err := false, errcode := 0#4 }
        engine := { s.engine with g := s.engine.len } } ∧
      (∀ i, i < s.engine.len →
        t.mem.read (s.dstAddr.toNat + i) = groupByte c s.mem s.srcAddr.toNat i s.engine.order) ∧
      (∀ a, ¬s.IsDest a → t.mem.read a = s.mem.read a)

/-- CONV.MONO from its CTRL write to DONE: bit `7 - i mod 8` (MSB-first) or `i mod 8` (LSB-first) of output byte
`i div 8` is 1 exactly when a channel of pixel `i` is below 150; no other byte changes. The command's
CTRL write is placed by `withFetchWord` (log entry 8), and the empty schedule then gives the engine its turns (log
entry 7). -/
def Obligations.ConvMonoWritesOneBitPerPixel : Prop :=
  ∀ (s : State) (o : BitOrder) (ie : Bool), s.Inv → s.status.busy = false → s.schedule = [] → s.Fits .mono →
    s.AnsweredFor (s.pixelCount / 8) →
    ∃ t : State,
      Host.Core.run Sys2Proof.core (s.pixelCount / 8 + 2) (s.withFetchWord 32 (encode (.convMono o ie)).toNat) =
        .next t ∧
      t.status = { busy := false, done := true, err := false, errcode := 0#4 } ∧
      t.outlen.toNat = s.pixelCount / 8 ∧ t.irq = ie ∧
      (∀ i, i < s.pixelCount →
        (t.mem.read (s.dstAddr.toNat + i / 8)).getLsbD (if o = .msbFirst then 7 - i % 8 else i % 8) =
          decide (s.chR i < 150 ∨ s.chG i < 150 ∨ s.chB i < 150)) ∧
      (∀ a, ¬(s.dstAddr.toNat ≤ a ∧ a < s.dstAddr.toNat + s.pixelCount / 8) → t.mem.read a = s.mem.read a)

/-- CONV.GRAY8 from its CTRL write to DONE: output byte `i` is the rounded mean of the channels of pixel `i`, whatever
the bit order; no other byte changes. The command's
CTRL write is placed by `withFetchWord` (log entry 8), and the empty schedule then gives the engine its turns (log
entry 7). -/
def Obligations.ConvGray8WritesOneMeanPerPixel : Prop :=
  ∀ (s : State) (o : BitOrder) (ie : Bool), s.Inv → s.status.busy = false → s.schedule = [] → s.Fits .gray8 →
    s.AnsweredFor s.pixelCount →
    ∃ t : State,
      Host.Core.run Sys2Proof.core (s.pixelCount + 2) (s.withFetchWord 32 (encode (.convGray8 o ie)).toNat) =
        .next t ∧
      t.status = { busy := false, done := true, err := false, errcode := 0#4 } ∧
      t.outlen.toNat = s.pixelCount ∧ t.irq = ie ∧ t.ctrl.order = o ∧
      (∀ i, i < s.pixelCount →
        (t.mem.read (s.dstAddr.toNat + i)).toNat = (s.chR i + s.chG i + s.chB i + 1) / 3) ∧
      (∀ a, ¬(s.dstAddr.toNat ≤ a ∧ a < s.dstAddr.toNat + s.pixelCount) → t.mem.read a = s.mem.read a)

/-- CONV.GRAY2 from its CTRL write to DONE: the two-bit field of pixel `i` in output byte `i div 4` is the level of the
rounded mean of its channels; no other byte changes. The command's
CTRL write is placed by `withFetchWord` (log entry 8), and the empty schedule then gives the engine its turns (log
entry 7). -/
def Obligations.ConvGray2WritesOneLevelPerPixel : Prop :=
  ∀ (s : State) (o : BitOrder) (ie : Bool), s.Inv → s.status.busy = false → s.schedule = [] → s.Fits .gray2 →
    s.AnsweredFor (s.pixelCount / 4) →
    ∃ t : State,
      Host.Core.run Sys2Proof.core (s.pixelCount / 4 + 2) (s.withFetchWord 32 (encode (.convGray2 o ie)).toNat) =
        .next t ∧
      t.status = { busy := false, done := true, err := false, errcode := 0#4 } ∧
      t.outlen.toNat = s.pixelCount / 4 ∧ t.irq = ie ∧
      (∀ i y, i < s.pixelCount → y = (s.chR i + s.chG i + s.chB i + 1) / 3 →
        (t.mem.read (s.dstAddr.toNat + i / 4)).toNat /
            2 ^ (if o = .msbFirst then 6 - 2 * (i % 4) else 2 * (i % 4)) % 4 =
          (if 192 < y then 3 else if 128 < y then 2 else if 64 < y then 1 else 0)) ∧
      (∀ a, ¬(s.dstAddr.toNat ≤ a ∧ a < s.dstAddr.toNat + s.pixelCount / 4) → t.mem.read a = s.mem.read a)

/-- 40_command.md §2: two runs of a conversion over the same colour bytes write the same output, whatever the alpha
bytes, the addresses, the shape of the raster, the contents of the destination, the interrupt enable and the rest of the
two machines. The command's
CTRL write is placed by `withFetchWord` (log entry 8), and the empty schedule then gives the engine its turns (log
entry 7). -/
def Obligations.OutputDependsOnColoursModeAndOrderAlone : Prop :=
  ∀ (s s' t t' : State) (c : Conv) (o : BitOrder) (ie ie' : Bool) (n : Nat), s.Inv → s'.Inv →
    s.status.busy = false → s'.status.busy = false → s.schedule = [] → s'.schedule = [] →
    s.Fits c → s'.Fits c → s.pixelCount = n → s'.pixelCount = n →
    s.AnsweredFor (n * c.bpp / 8) → s'.AnsweredFor (n * c.bpp / 8) →
    (∀ i, i < n → s.chR i = s'.chR i ∧ s.chG i = s'.chG i ∧ s.chB i = s'.chB i) →
    Host.Core.run Sys2Proof.core (n * c.bpp / 8 + 2) (s.withFetchWord 32 (encode (convInstr c o ie)).toNat) = .next t →
    Host.Core.run Sys2Proof.core (n * c.bpp / 8 + 2) (s'.withFetchWord 32 (encode (convInstr c o ie')).toNat) =
      .next t' →
    ∀ i, i < n * c.bpp / 8 →
      t.mem.read (s.dstAddr.toNat + i) = t'.mem.read (s'.dstAddr.toNat + i)

/-! ### STATUS, the interrupt and the other registers -/

/-- 10_state.md R28: a host write of `v` to STATUS, and a host read of it. A read that shows BUSY = 0 also empties the
model's own list `unsynced` (log entry 4). -/
def Obligations.StatusWriteAndReadFollowTheRule : Prop :=
  ∀ (s : State) (v : Word),
    hostStep (.regWrite 0x04 4 v) s =
      .next { s with status :=
        { busy := s.status.busy
          done := s.status.done && !v.getLsbD 1
          err := s.status.err && !v.getLsbD 2
          errcode := if v.getLsbD 2 = true then 0#4 else s.status.errcode } } ∧
    (s.Inv → s.status.busy = true → hostStep (.regWrite 0x04 4 v) s = .next s) ∧
    hostStep (.regRead 0x04 4) s =
      .next { s with
        unsynced := if s.status.busy = true then s.unsynced else []
        results := .word (0#24 ++ s.status.errcode ++ 0#1 ++ BitVec.ofBool s.status.err ++
          BitVec.ofBool s.status.done ++ BitVec.ofBool s.status.busy) :: s.results }

/-- 60_exceptions.md R185: the interrupt output, what enables it, and every way it is cleared. -/
def Obligations.InterruptIsALevelOfStatusAndEnable : Prop :=
  (∀ s : State, s.irq = true ↔ s.ctrl.ie = true ∧ (s.status.done = true ∨ s.status.err = true)) ∧
  (∀ (s t : State) (v : Word), s.Inv → s.status.done = true → v.getLsbD 1 = true →
    hostStep (.regWrite 0x04 4 v) s = .next t → t.irq = false) ∧
  (∀ (s t : State) (v : Word), s.Inv → s.status.err = true → v.getLsbD 2 = true →
    hostStep (.regWrite 0x04 4 v) s = .next t → t.irq = false) ∧
  (∀ (s t : State) (i : Instr), exec i s = .next t → i.ie = false → t.irq = false) ∧
  (∀ (s t : State) (i : Instr), s.status.busy = false → i.start = true → exec i s = .next t →
    t.status.busy = true → t.irq = false) ∧
  (∀ s t : State, hostStep .reset s = .next t → t.irq = false)

/-- 10_state.md §5: an argument register takes any value while idle and keeps its value while BUSY; the write changes
nothing else, and a read returns what it holds. -/
def Obligations.ArgumentRegistersAreStorageWhileIdle : Prop :=
  ∀ (s : State) (v : Word),
    (s.status.busy = false →
      hostStep (.regWrite 0x08 4 v) s = .next { s with srcAddr := v } ∧
      hostStep (.regWrite 0x0C 4 v) s = .next { s with dstAddr := v } ∧
      hostStep (.regWrite 0x10 4 v) s = .next { s with width := v } ∧
      hostStep (.regWrite 0x14 4 v) s = .next { s with height := v }) ∧
    (s.status.busy = true → ∀ off, off = 0x08 ∨ off = 0x0C ∨ off = 0x10 ∨ off = 0x14 →
      hostStep (.regWrite off 4 v) s = .next s) ∧
    hostStep (.regRead 0x08 4) s = .next { s with results := .word s.srcAddr :: s.results } ∧
    hostStep (.regRead 0x0C 4) s = .next { s with results := .word s.dstAddr :: s.results } ∧
    hostStep (.regRead 0x10 4) s = .next { s with results := .word s.width :: s.results } ∧
    hostStep (.regRead 0x14 4) s = .next { s with results := .word s.height :: s.results } ∧
    hostStep (.regRead 0x18 4) s = .next { s with results := .word s.outlen :: s.results }

/-- 10_state.md R25: the reserved offset and bits read as 0, and writes to them and to read-only registers and fields
are ignored. -/
def Obligations.ReservedAndReadOnlyIgnoreWrites : Prop :=
  (∀ (s : State) (v : Word), hostStep (.regWrite 0x1C 4 v) s = .next s ∧ hostStep (.regWrite 0x18 4 v) s = .next s) ∧
  (∀ s : State, s.readReg .rsvd = 0#32 ∧
    hostStep (.regRead 0x1C 4) s = .next { s with results := .word 0#32 :: s.results }) ∧
  (∀ (s : State) (k : Nat), (5 ≤ k → (s.readReg .ctrl).getLsbD k = false) ∧
    (k = 3 ∨ 8 ≤ k → (s.readReg .status).getLsbD k = false)) ∧
  (∀ (s : State) (v w : Word), v &&& 0x1F#32 = w &&& 0x1F#32 →
    hostStep (.regWrite 0x00 4 v) s = hostStep (.regWrite 0x00 4 w) s) ∧
  (∀ (s : State) (v w : Word), v &&& 0x6#32 = w &&& 0x6#32 →
    hostStep (.regWrite 0x04 4 v) s = hostStep (.regWrite 0x04 4 w) s) ∧
  (∀ (s t : State) (v : Word), hostStep (.regWrite 0x04 4 v) s = .next t →
    t.status.busy = s.status.busy ∧ (v.getLsbD 2 = false → t.status.errcode = s.status.errcode))

/-- 10_state.md §2: a host access of the window of another width or alignment stops by name, read or write. -/
def Obligations.OtherWidthsAndAlignmentsAreRefused : Prop :=
  ∀ (s : State) (off bytes : Nat) (v : Word), bytes ≠ 4 ∨ off % 4 ≠ 0 →
    hostStep (.regWrite off bytes v) s = .refused .notAlignedWordAccess ∧
    hostStep (.regRead off bytes) s = .refused .notAlignedWordAccess

/-- 60_exceptions.md §5: a second host's write of an argument register inside the first one's programming stops by
name; while a command runs it is ignored like any other, and its START is lost. -/
def Obligations.SecondHostMustSerialise : Prop :=
  ∀ (s : State) (v : Word),
    (∀ off, off = 0x08 ∨ off = 0x0C ∨ off = 0x10 ∨ off = 0x14 →
      (s.status.busy = false → hostStep (.secondHostWrite off v) s = .refused .interleavedHosts) ∧
      (s.status.busy = true → hostStep (.secondHostWrite off v) s = .next s)) ∧
    (s.status.busy = true →
      hostStep (.secondHostWrite 0x00 v) s = .next { s with ctrl := { s.ctrl with ie := v.getLsbD 4 } })

/-- 10_state.md R30: what writes OUTLEN, and that nothing else does. -/
def Obligations.OutlenChangesOnlyAtAnIdleStart : Prop :=
  (∀ (s t : State) (i : Instr), s.Inv → s.status.busy = false → i.start = true → exec i s = .next t →
    (t.status.busy = true → t.outlen.toNat = t.engine.len ∧
      validate i.mode s.pixelCount s.srcAddr.toNat s.dstAddr.toNat = .ok t.outlen.toNat) ∧
    (t.status.err = true → t.outlen = 0#32)) ∧
  (∀ s t : State, step s = .next t → t.outlen ≠ s.outlen →
    ∃ op rest, s.schedule = .host op :: rest ∧
      (op = .reset ∨ (s.status.busy = false ∧ ∃ off v, (op = .regWrite off 4 v ∨ op = .secondHostWrite off v) ∧
        off = 0x00 ∧ v.getLsbD 0 = true)))

/-! ### Reset -/

/-- 10_state.md R40: the state after reset. (Memory's contents are the platform's; the model's choice is log entry 1.) -/
def Obligations.ResetStateIsAllZero : Prop :=
  State.reset.ctrl.mode.toBits = 0b00#2 ∧ State.reset.ctrl.order.toBit = false ∧ State.reset.ctrl.ie = false ∧
  State.reset.status.busy = false ∧ State.reset.status.done = false ∧ State.reset.status.err = false ∧
  State.reset.status.errcode = 0#4 ∧ State.reset.srcAddr = 0#32 ∧ State.reset.dstAddr = 0#32 ∧
  State.reset.width = 0#32 ∧ State.reset.height = 0#32 ∧ State.reset.outlen = 0#32 ∧
  State.reset.engine.g = 0 ∧ State.reset.engine.len = 0 ∧ State.reset.engine.mode.toBits = 0b00#2 ∧
  State.reset.engine.order.toBit = false ∧ State.reset.irq = false ∧
  ∀ r : Reg, State.reset.readReg r = 0#32

/-- 70_reset_and_hazards.md R200, R201: the reset input, from any state that meets the invariant: every register and the
engine's state take their reset values, memory is unchanged but for the destination range of a command it ends, and the
engine makes no further access. -/
def Obligations.ResetInputClearsTheBlock : Prop :=
  ∀ s : State, s.Inv → ∃ t, hostStep .reset s = .next t ∧
    (∀ r : Reg, t.readReg r = 0#32) ∧
    t.engine = { g := 0, len := 0, mode := .mono, order := .msbFirst } ∧ t.irq = false ∧
    t.status.busy = false ∧ t.status.done = false ∧ t.status.err = false ∧
    (s.status.busy = false → t.mem = s.mem) ∧
    (∀ a, ¬(s.status.busy = true ∧ s.IsDest a) → t.mem.read a = s.mem.read a) ∧
    engineTurn t = .next t

/-! ### Host loads and stores -/

/-- With no command running and none unobserved, host stores and loads of ordinary memory are those of one memory: a
load returns the byte, a store changes that byte alone and no register. -/
def Obligations.SettledLoadsAndStoresAreOrdinary : Prop :=
  ∀ (s : State) (a : Word) (v : Byte), s.Inv → s.status.busy = false → s.unsynced = [] →
    (∀ r ∈ s.platform.sideEffects, r.has a.toNat = false) →
    hostStep (.lb a) s = .next { s with results := .byte (s.mem.read a.toNat) :: s.results } ∧
    ∃ t, hostStep (.sb a v) s = .next t ∧ t = { s with mem := t.mem } ∧ t.mem.read a.toNat = v ∧
      ∀ b, b ≠ a.toNat → t.mem.read b = s.mem.read b

/-- 20_memory.md §6: a host load of a destination byte of the only command whose end the host has not seen returns the
byte's old value or its final value, and changes no memory: while the command runs and the host has kept off its ranges,
and after it has ended until the host reads STATUS. -/
def Obligations.DestinationLoadBeforeTheEndIsSeenIsOldOrFinal : Prop :=
  ∀ (s : State) (a : Word) (tr : Transfer), s.unsynced = [tr] → tr.dst ≤ a.toNat → a.toNat < tr.dst + tr.len →
    (∀ r ∈ s.platform.sideEffects, r.has a.toNat = false) →
    (∀ c : Conv, s.Inv → s.status.busy = true → s.disturbed = false → s.engine.mode = c.mode →
      ∃ (t : State) (b : Byte), hostStep (.lb a) s = .next t ∧ t.results = .byte b :: s.results ∧ t.mem = s.mem ∧
        (b = tr.old.read a.toNat ∨
          b = groupByte c s.mem s.srcAddr.toNat (a.toNat - s.dstAddr.toNat) s.engine.order)) ∧
    (s.status.busy = false →
      ∃ (t : State) (b : Byte), hostStep (.lb a) s = .next t ∧ t.results = .byte b :: s.results ∧ t.mem = s.mem ∧
        (b = tr.old.read a.toNat ∨ b = s.mem.read a.toNat))

/-- 20_memory.md §6: a host load of a source byte while BUSY returns what memory holds. -/
def Obligations.SourceLoadWhileBusyIsExact : Prop :=
  ∀ (s : State) (a : Word), s.status.busy = true →
    s.srcAddr.toNat ≤ a.toNat → a.toNat < s.srcAddr.toNat + 4 * s.pixelCount →
    (∀ r ∈ s.platform.sideEffects, r.has a.toNat = false) →
    hostStep (.lb a) s = .next { s with results := .byte (s.mem.read a.toNat) :: s.results }

/-- 20_memory.md §6: a host store into a range of the running command marks it, and the command still ends as it would
have: its completion step reports DONE, and no byte outside the destination range changes at it. -/
def Obligations.StoreIntoARunningRangeKeepsTheEnd : Prop :=
  (∀ (s : State) (a : Word) (v : Byte), s.Inv → s.status.busy = true →
    (s.IsDest a.toNat ∨ (s.srcAddr.toNat ≤ a.toNat ∧ a.toNat < s.srcAddr.toNat + 4 * s.pixelCount)) →
    (∀ r ∈ s.platform.sideEffects, r.has a.toNat = false) →
    ∃ t, hostStep (.sb a v) s = .next t ∧ t.disturbed = true ∧ t.status = s.status ∧ t.engine = s.engine ∧
      (∀ b, b ≠ a.toNat → t.mem.read b = s.mem.read b)) ∧
  (∀ s : State, s.Inv → s.status.busy = true → s.hung = false → s.engine.g = s.engine.len → s.disturbed = true →
    ∃ t, engineTurn s = .next t ∧ t.status = { busy := false, done := true, err := false, errcode := 0#4 } ∧
      ∀ a, ¬s.IsDest a → t.mem.read a = s.mem.read a)

/-- 20_memory.md §6: after a STATUS read that shows BUSY = 0, every host load of ordinary memory returns the byte memory
holds. -/
def Obligations.StatusReadOfIdleSynchronises : Prop :=
  ∀ s : State, s.status.busy = false → ∃ t, hostStep (.regRead 0x04 4) s = .next t ∧ t.mem = s.mem ∧
    ∀ a : Word, (∀ r ∈ s.platform.sideEffects, r.has a.toNat = false) →
      hostStep (.lb a) t = .next { t with results := .byte (s.mem.read a.toNat) :: t.results }

/-! ### Host programs -/

/-- 30_encoding.md §6: `POLL` of STATUS goes on while the masked value differs, the engine taking a turn between two
reads, and ends at the first read that matches. -/
def Obligations.PollRepeatsUntilTheValueMatches : Prop :=
  ∀ (s : State) (mask val : Word),
    (s.status.toWord &&& mask = val → hostStep (.poll 0x04 mask val) s =
      .next { s with unsynced := if s.status.busy = true then s.unsynced else [] }) ∧
    (s.status.toWord &&& mask ≠ val → hostStep (.poll 0x04 mask val) s =
      .next { s with
        unsynced := if s.status.busy = true then s.unsynced else []
        schedule := .engine :: .host (.poll 0x04 mask val) :: s.schedule })

/-- 30_encoding.md §6: the pseudo-instruction `CONV.<form> src, dst, w, h` programs the four argument registers and then
writes the form's CTRL word. -/
def Obligations.ConvPseudoInstructionProgramsTheBlock : Prop :=
  ∀ (s : State) (f : CmdForm) (src dst w h : Word), s.status.busy = false →
    s.schedule = (Stmt.conv f src dst w h).expand →
    Host.Core.run Sys2Proof.core 4 s =
      .next { s with
        srcAddr := src
        dstAddr := dst
        width := w
        height := h
        schedule := [.host (.regWrite 0x00 4 (encode (convInstr f.conv (if f.lsb then .lsbFirst else .msbFirst) f.ie)))]
      }

/-! ### Stores and the engine -/

/-- 20_memory.md §6: a host store of ordinary memory made while no command runs takes effect at once and for good,
whatever commands the host has not observed, one ended by a reset among them: memory, which is all the engine of a later
command reads, holds the value, no other byte and no register changes, and the host's next load returns it. `unsynced` is
the model's own (log entry 4); one memory for host and engine is log entry 9. -/
def Obligations.IdleStoreTakesEffectAtOnce : Prop :=
  ∀ (s : State) (a : Word) (v : Byte), s.Inv → s.status.busy = false →
    (∀ r ∈ s.platform.sideEffects, r.has a.toNat = false) →
    ∃ t, hostStep (.sb a v) s = .next t ∧ t = { s with mem := t.mem, unsynced := t.unsynced } ∧
      t.mem.read a.toNat = v ∧ (∀ b, b ≠ a.toNat → t.mem.read b = s.mem.read b) ∧
      ∃ u, hostStep (.lb a) t = .next u ∧ u.results = .byte v :: s.results ∧ u.mem = t.mem
end

