-- ==== Sys2Proof/Laws/State.lean ====
section
/-! SUPPORT. One lemma per field per update of State. -/

namespace Sys2Proof.Machine

variable (s : State)

@[simp] theorem State.setCtrl_ctrl (c : Ctrl) : (s.setCtrl c).ctrl = c := rfl
@[simp] theorem State.setCtrl_status (c : Ctrl) : (s.setCtrl c).status = s.status := rfl
@[simp] theorem State.setCtrl_srcAddr (c : Ctrl) : (s.setCtrl c).srcAddr = s.srcAddr := rfl
@[simp] theorem State.setCtrl_dstAddr (c : Ctrl) : (s.setCtrl c).dstAddr = s.dstAddr := rfl
@[simp] theorem State.setCtrl_width (c : Ctrl) : (s.setCtrl c).width = s.width := rfl
@[simp] theorem State.setCtrl_height (c : Ctrl) : (s.setCtrl c).height = s.height := rfl
@[simp] theorem State.setCtrl_outlen (c : Ctrl) : (s.setCtrl c).outlen = s.outlen := rfl
@[simp] theorem State.setCtrl_engine (c : Ctrl) : (s.setCtrl c).engine = s.engine := rfl
@[simp] theorem State.setCtrl_mem (c : Ctrl) : (s.setCtrl c).mem = s.mem := rfl
@[simp] theorem State.setCtrl_hung (c : Ctrl) : (s.setCtrl c).hung = s.hung := rfl
@[simp] theorem State.setCtrl_disturbed (c : Ctrl) : (s.setCtrl c).disturbed = s.disturbed := rfl
@[simp] theorem State.setCtrl_unsynced (c : Ctrl) : (s.setCtrl c).unsynced = s.unsynced := rfl
@[simp] theorem State.setCtrl_draws (c : Ctrl) : (s.setCtrl c).draws = s.draws := rfl
@[simp] theorem State.setCtrl_platform (c : Ctrl) : (s.setCtrl c).platform = s.platform := rfl
@[simp] theorem State.setCtrl_schedule (c : Ctrl) : (s.setCtrl c).schedule = s.schedule := rfl
@[simp] theorem State.setCtrl_results (c : Ctrl) : (s.setCtrl c).results = s.results := rfl

@[simp] theorem State.setStatus_ctrl (st : Status) : (s.setStatus st).ctrl = s.ctrl := rfl
@[simp] theorem State.setStatus_status (st : Status) : (s.setStatus st).status = st := rfl
@[simp] theorem State.setStatus_srcAddr (st : Status) : (s.setStatus st).srcAddr = s.srcAddr := rfl
@[simp] theorem State.setStatus_dstAddr (st : Status) : (s.setStatus st).dstAddr = s.dstAddr := rfl
@[simp] theorem State.setStatus_width (st : Status) : (s.setStatus st).width = s.width := rfl
@[simp] theorem State.setStatus_height (st : Status) : (s.setStatus st).height = s.height := rfl
@[simp] theorem State.setStatus_outlen (st : Status) : (s.setStatus st).outlen = s.outlen := rfl
@[simp] theorem State.setStatus_engine (st : Status) : (s.setStatus st).engine = s.engine := rfl
@[simp] theorem State.setStatus_mem (st : Status) : (s.setStatus st).mem = s.mem := rfl
@[simp] theorem State.setStatus_hung (st : Status) : (s.setStatus st).hung = s.hung := rfl
@[simp] theorem State.setStatus_disturbed (st : Status) : (s.setStatus st).disturbed = s.disturbed := rfl
@[simp] theorem State.setStatus_unsynced (st : Status) : (s.setStatus st).unsynced = s.unsynced := rfl
@[simp] theorem State.setStatus_draws (st : Status) : (s.setStatus st).draws = s.draws := rfl
@[simp] theorem State.setStatus_platform (st : Status) : (s.setStatus st).platform = s.platform := rfl
@[simp] theorem State.setStatus_schedule (st : Status) : (s.setStatus st).schedule = s.schedule := rfl
@[simp] theorem State.setStatus_results (st : Status) : (s.setStatus st).results = s.results := rfl

@[simp] theorem State.setOutlen_ctrl (v : Word) : (s.setOutlen v).ctrl = s.ctrl := rfl
@[simp] theorem State.setOutlen_status (v : Word) : (s.setOutlen v).status = s.status := rfl
@[simp] theorem State.setOutlen_srcAddr (v : Word) : (s.setOutlen v).srcAddr = s.srcAddr := rfl
@[simp] theorem State.setOutlen_dstAddr (v : Word) : (s.setOutlen v).dstAddr = s.dstAddr := rfl
@[simp] theorem State.setOutlen_width (v : Word) : (s.setOutlen v).width = s.width := rfl
@[simp] theorem State.setOutlen_height (v : Word) : (s.setOutlen v).height = s.height := rfl
@[simp] theorem State.setOutlen_outlen (v : Word) : (s.setOutlen v).outlen = v := rfl
@[simp] theorem State.setOutlen_engine (v : Word) : (s.setOutlen v).engine = s.engine := rfl
@[simp] theorem State.setOutlen_mem (v : Word) : (s.setOutlen v).mem = s.mem := rfl
@[simp] theorem State.setOutlen_hung (v : Word) : (s.setOutlen v).hung = s.hung := rfl
@[simp] theorem State.setOutlen_disturbed (v : Word) : (s.setOutlen v).disturbed = s.disturbed := rfl
@[simp] theorem State.setOutlen_unsynced (v : Word) : (s.setOutlen v).unsynced = s.unsynced := rfl
@[simp] theorem State.setOutlen_draws (v : Word) : (s.setOutlen v).draws = s.draws := rfl
@[simp] theorem State.setOutlen_platform (v : Word) : (s.setOutlen v).platform = s.platform := rfl
@[simp] theorem State.setOutlen_schedule (v : Word) : (s.setOutlen v).schedule = s.schedule := rfl
@[simp] theorem State.setOutlen_results (v : Word) : (s.setOutlen v).results = s.results := rfl

@[simp] theorem State.pushResult_ctrl (r : HostResult) : (s.pushResult r).ctrl = s.ctrl := rfl
@[simp] theorem State.pushResult_status (r : HostResult) : (s.pushResult r).status = s.status := rfl
@[simp] theorem State.pushResult_srcAddr (r : HostResult) : (s.pushResult r).srcAddr = s.srcAddr := rfl
@[simp] theorem State.pushResult_dstAddr (r : HostResult) : (s.pushResult r).dstAddr = s.dstAddr := rfl
@[simp] theorem State.pushResult_width (r : HostResult) : (s.pushResult r).width = s.width := rfl
@[simp] theorem State.pushResult_height (r : HostResult) : (s.pushResult r).height = s.height := rfl
@[simp] theorem State.pushResult_outlen (r : HostResult) : (s.pushResult r).outlen = s.outlen := rfl
@[simp] theorem State.pushResult_engine (r : HostResult) : (s.pushResult r).engine = s.engine := rfl
@[simp] theorem State.pushResult_mem (r : HostResult) : (s.pushResult r).mem = s.mem := rfl
@[simp] theorem State.pushResult_hung (r : HostResult) : (s.pushResult r).hung = s.hung := rfl
@[simp] theorem State.pushResult_disturbed (r : HostResult) : (s.pushResult r).disturbed = s.disturbed := rfl
@[simp] theorem State.pushResult_unsynced (r : HostResult) : (s.pushResult r).unsynced = s.unsynced := rfl
@[simp] theorem State.pushResult_draws (r : HostResult) : (s.pushResult r).draws = s.draws := rfl
@[simp] theorem State.pushResult_platform (r : HostResult) : (s.pushResult r).platform = s.platform := rfl
@[simp] theorem State.pushResult_schedule (r : HostResult) : (s.pushResult r).schedule = s.schedule := rfl
@[simp] theorem State.pushResult_results (r : HostResult) : (s.pushResult r).results = r :: s.results := rfl

@[simp] theorem State.drawGroup_ctrl : s.drawGroup.ctrl = s.ctrl := rfl
@[simp] theorem State.drawGroup_status : s.drawGroup.status = s.status := rfl
@[simp] theorem State.drawGroup_srcAddr : s.drawGroup.srcAddr = s.srcAddr := rfl
@[simp] theorem State.drawGroup_dstAddr : s.drawGroup.dstAddr = s.dstAddr := rfl
@[simp] theorem State.drawGroup_width : s.drawGroup.width = s.width := rfl
@[simp] theorem State.drawGroup_height : s.drawGroup.height = s.height := rfl
@[simp] theorem State.drawGroup_outlen : s.drawGroup.outlen = s.outlen := rfl
@[simp] theorem State.drawGroup_engine : s.drawGroup.engine = s.engine := rfl
@[simp] theorem State.drawGroup_mem : s.drawGroup.mem = s.mem := rfl
@[simp] theorem State.drawGroup_hung : s.drawGroup.hung = s.hung := rfl
@[simp] theorem State.drawGroup_disturbed : s.drawGroup.disturbed = s.disturbed := rfl
@[simp] theorem State.drawGroup_unsynced : s.drawGroup.unsynced = s.unsynced := rfl
@[simp] theorem State.drawGroup_draws : s.drawGroup.draws = s.draws + drawsPerGroup := rfl
@[simp] theorem State.drawGroup_platform : s.drawGroup.platform = s.platform := rfl
@[simp] theorem State.drawGroup_schedule : s.drawGroup.schedule = s.schedule := rfl
@[simp] theorem State.drawGroup_results : s.drawGroup.results = s.results := rfl

@[simp] theorem State.drawDest_ctrl : s.drawDest.ctrl = s.ctrl := rfl
@[simp] theorem State.drawDest_status : s.drawDest.status = s.status := rfl
@[simp] theorem State.drawDest_srcAddr : s.drawDest.srcAddr = s.srcAddr := rfl
@[simp] theorem State.drawDest_dstAddr : s.drawDest.dstAddr = s.dstAddr := rfl
@[simp] theorem State.drawDest_width : s.drawDest.width = s.width := rfl
@[simp] theorem State.drawDest_height : s.drawDest.height = s.height := rfl
@[simp] theorem State.drawDest_outlen : s.drawDest.outlen = s.outlen := rfl
@[simp] theorem State.drawDest_engine : s.drawDest.engine = s.engine := rfl
@[simp] theorem State.drawDest_mem : s.drawDest.mem = s.mem.drawBytes s.dstAddr.toNat s.engine.len s.draws := rfl
@[simp] theorem State.drawDest_hung : s.drawDest.hung = s.hung := rfl
@[simp] theorem State.drawDest_disturbed : s.drawDest.disturbed = s.disturbed := rfl
@[simp] theorem State.drawDest_unsynced : s.drawDest.unsynced = s.unsynced := rfl
@[simp] theorem State.drawDest_draws : s.drawDest.draws = s.draws + s.engine.len := rfl
@[simp] theorem State.drawDest_platform : s.drawDest.platform = s.platform := rfl
@[simp] theorem State.drawDest_schedule : s.drawDest.schedule = s.schedule := rfl
@[simp] theorem State.drawDest_results : s.drawDest.results = s.results := rfl

/-! ### Bounds -/

/-- WIDTH and HEIGHT are below `2^32` (00_scope.md R6). -/
theorem State.width_lt : s.width.toNat < 2 ^ 32 := s.width.isLt
theorem State.height_lt : s.height.toNat < 2 ^ 32 := s.height.isLt

/-! ### Host stores -/

@[simp] theorem storeByte_ctrl (a : Nat) (v : Byte) : (storeByte a v s).ctrl = s.ctrl := rfl
@[simp] theorem storeByte_status (a : Nat) (v : Byte) : (storeByte a v s).status = s.status := rfl
@[simp] theorem storeByte_srcAddr (a : Nat) (v : Byte) : (storeByte a v s).srcAddr = s.srcAddr := rfl
@[simp] theorem storeByte_dstAddr (a : Nat) (v : Byte) : (storeByte a v s).dstAddr = s.dstAddr := rfl
@[simp] theorem storeByte_width (a : Nat) (v : Byte) : (storeByte a v s).width = s.width := rfl
@[simp] theorem storeByte_height (a : Nat) (v : Byte) : (storeByte a v s).height = s.height := rfl
@[simp] theorem storeByte_outlen (a : Nat) (v : Byte) : (storeByte a v s).outlen = s.outlen := rfl
@[simp] theorem storeByte_engine (a : Nat) (v : Byte) : (storeByte a v s).engine = s.engine := rfl
@[simp] theorem storeByte_hung (a : Nat) (v : Byte) : (storeByte a v s).hung = s.hung := rfl
@[simp] theorem storeByte_draws (a : Nat) (v : Byte) : (storeByte a v s).draws = s.draws := rfl
@[simp] theorem storeByte_platform (a : Nat) (v : Byte) : (storeByte a v s).platform = s.platform := rfl
@[simp] theorem storeByte_schedule (a : Nat) (v : Byte) : (storeByte a v s).schedule = s.schedule := rfl
@[simp] theorem storeByte_results (a : Nat) (v : Byte) : (storeByte a v s).results = s.results := rfl
@[simp] theorem storeByte_mem (a : Nat) (v : Byte) : (storeByte a v s).mem = s.mem.write a v := rfl
@[simp] theorem storeByte_unsynced (a : Nat) (v : Byte) :
    (storeByte a v s).unsynced = s.unsynced.map (Transfer.settle a v) := rfl
@[simp] theorem storeByte_disturbed (a : Nat) (v : Byte) :
    (storeByte a v s).disturbed = (s.disturbed || s.inSource a || s.inDest a) := rfl

/-! ### Argument registers -/

@[simp] theorem State.setArg_ctrl (r : Reg) (v : Word) : (s.setArg r v).ctrl = s.ctrl := by
  cases r <;> rfl
@[simp] theorem State.setArg_status (r : Reg) (v : Word) : (s.setArg r v).status = s.status := by
  cases r <;> rfl
@[simp] theorem State.setArg_srcAddr (r : Reg) (v : Word) : (s.setArg r v).srcAddr = if r = .srcAddr then v else s.srcAddr := by
  cases r <;> rfl
@[simp] theorem State.setArg_dstAddr (r : Reg) (v : Word) : (s.setArg r v).dstAddr = if r = .dstAddr then v else s.dstAddr := by
  cases r <;> rfl
@[simp] theorem State.setArg_width (r : Reg) (v : Word) : (s.setArg r v).width = if r = .width then v else s.width := by
  cases r <;> rfl
@[simp] theorem State.setArg_height (r : Reg) (v : Word) : (s.setArg r v).height = if r = .height then v else s.height := by
  cases r <;> rfl
@[simp] theorem State.setArg_outlen (r : Reg) (v : Word) : (s.setArg r v).outlen = s.outlen := by
  cases r <;> rfl
@[simp] theorem State.setArg_engine (r : Reg) (v : Word) : (s.setArg r v).engine = s.engine := by
  cases r <;> rfl
@[simp] theorem State.setArg_mem (r : Reg) (v : Word) : (s.setArg r v).mem = s.mem := by
  cases r <;> rfl
@[simp] theorem State.setArg_hung (r : Reg) (v : Word) : (s.setArg r v).hung = s.hung := by
  cases r <;> rfl
@[simp] theorem State.setArg_disturbed (r : Reg) (v : Word) : (s.setArg r v).disturbed = s.disturbed := by
  cases r <;> rfl
@[simp] theorem State.setArg_unsynced (r : Reg) (v : Word) : (s.setArg r v).unsynced = s.unsynced := by
  cases r <;> rfl
@[simp] theorem State.setArg_draws (r : Reg) (v : Word) : (s.setArg r v).draws = s.draws := by
  cases r <;> rfl
@[simp] theorem State.setArg_platform (r : Reg) (v : Word) : (s.setArg r v).platform = s.platform := by
  cases r <;> rfl
@[simp] theorem State.setArg_schedule (r : Reg) (v : Word) : (s.setArg r v).schedule = s.schedule := by
  cases r <;> rfl
@[simp] theorem State.setArg_results (r : Reg) (v : Word) : (s.setArg r v).results = s.results := by
  cases r <;> rfl

end Sys2Proof.Machine
end

