-- ==== Sys2Proof/Laws/Command.lean ====
section
/-! SUPPORT. What the checks at START and a write of CTRL can do, said once each. -/

namespace Sys2Proof.Machine

/-- Pixels per output byte times the output length is the pixel count (20_memory.md R52, 40_command.md R102). -/
theorem group_mul_outputLength {c : Conv} {n : Nat} (h : n % 8 = 0) : c.group * outputLength c n = n := by
  cases c <;> simp only [Conv.group, Conv.bpp, outputLength, Config.GROUP_MONO, Config.GROUP_GRAY8,
    Config.GROUP_GRAY2] <;> omega

/-- What an accepted command has passed (40_command.md R103). -/
theorem validate_ok {m : Mode} {n src dst k : Nat} (h : validate m n src dst = .ok k) :
    ∃ c, m.conv? = some c ∧ n % 8 = 0 ∧ k = outputLength c n ∧ src + 4 * n ≤ Config.addrSpace ∧
      dst + k ≤ Config.addrSpace ∧ (0 < n → dst + k ≤ src ∨ src + 4 * n ≤ dst) := by
  unfold validate at h
  split at h
  · cases h
  · rename_i c hc
    by_cases h1 : n % Config.DIM_MULTIPLE ≠ 0
    · rw [if_pos h1] at h; cases h
    · rw [if_neg h1] at h
      by_cases h2 : Config.addrSpace < src + Config.BYTES_PER_PIXEL * n ∨ Config.addrSpace < dst + outputLength c n
      · rw [if_pos h2] at h; cases h
      · rw [if_neg h2] at h
        by_cases h3 : 0 < n ∧ src < dst + outputLength c n ∧ dst < src + Config.BYTES_PER_PIXEL * n
        · rw [if_pos h3] at h; cases h
        · rw [if_neg h3] at h
          cases h
          simp only [Config.DIM_MULTIPLE, Config.BYTES_PER_PIXEL] at h1 h2 h3
          exact ⟨c, hc, by omega, rfl, by omega, by omega, by omega⟩

/-- A region holds an address (20_memory.md R51, R52). -/
theorem Region.has_iff {r : Region} {a : Nat} : r.has a = true ↔ r.lo ≤ a ∧ a < r.lo + r.len := by
  simp only [Region.has, Bool.and_eq_true, decide_eq_true_eq]

/-- Two regions meet when they share an address. -/
theorem Region.meets_iff {r q : Region} : r.meets q = true ↔ ∃ a, r.has a = true ∧ q.has a = true := by
  simp only [Region.meets, Region.has, Bool.and_eq_true, decide_eq_true_eq]
  constructor
  · intro h
    exact ⟨max r.lo q.lo, by omega, by omega⟩
  · rintro ⟨a, h1, h2⟩
    omega

/-- A command touches side-effect memory when such a byte lies in one of its ranges (20_memory.md R56). -/
theorem touchesSideEffects_iff {s : State} {n : Nat} : s.touchesSideEffects n = true ↔
    ∃ r ∈ s.platform.sideEffects, ∃ a, r.has a = true ∧
      ((s.srcAddr.toNat ≤ a ∧ a < s.srcAddr.toNat + 4 * s.pixelCount) ∨
        (s.dstAddr.toNat ≤ a ∧ a < s.dstAddr.toNat + n)) := by
  simp only [State.touchesSideEffects, List.any_eq_true, Bool.or_eq_true, Region.meets_iff]
  constructor
  · rintro ⟨r, hr, ⟨a, h1, h2⟩ | ⟨a, h1, h2⟩⟩
    · exact ⟨r, hr, a, h2, .inl (Region.has_iff.1 h1)⟩
    · exact ⟨r, hr, a, h2, .inr (Region.has_iff.1 h1)⟩
  · rintro ⟨r, hr, a, h1, h2 | h2⟩
    · exact ⟨r, hr, .inl ⟨a, Region.has_iff.2 h2, h1⟩⟩
    · exact ⟨r, hr, .inr ⟨a, Region.has_iff.2 h2, h1⟩⟩

theorem validate_reserved (n src dst : Nat) : validate .reserved n src dst = .error .mode := rfl

/-- The engine's MODE of an accepted command selects a conversion (40_command.md R105). -/
theorem conv?_mode (c : Conv) : c.mode.conv? = some c := by cases c <;> rfl

theorem mode_of_conv? {m : Mode} {c : Conv} (h : m.conv? = some c) : m = c.mode := by
  cases m <;> cases c <;> simp_all [Mode.conv?, Conv.mode]

/-- A CTRL write while BUSY writes IE alone (10_state.md R32). -/
theorem writeCtrl_busy {s : State} (start : Bool) (m : Mode) (o : BitOrder) (ie : Bool) (hb : s.status.busy = true) :
    writeCtrl start m o ie s = .next (s.setCtrl { s.ctrl with ie := ie }) := by simp [writeCtrl, hb]

/-- A configuration write while idle stores the fields (10_state.md R32). -/
theorem writeCtrl_configure {s : State} (m : Mode) (o : BitOrder) (ie : Bool) (hb : s.status.busy = false) :
    writeCtrl false m o ie s = .next (s.setCtrl { mode := m, order := o, ie := ie }) := by simp [writeCtrl, hb]

/-- A START while idle stores the fields and starts a command (10_state.md R32). -/
theorem writeCtrl_start {s : State} (m : Mode) (o : BitOrder) (ie : Bool) (hb : s.status.busy = false) :
    writeCtrl true m o ie s = startCommand (s.setCtrl { mode := m, order := o, ie := ie }) := by
  simp [writeCtrl, hb]

/-- `start_command()` rejects the command, refuses it for side-effect memory, or accepts it (40_command.md R100). -/
theorem startCommand_eq (s : State) :
    startCommand s =
      match s.validated with
      | .error e => .next (rejectCommand e (s.setStatus s.status.cleared))
      | .ok n =>
        if s.touchesSideEffects n then .refused .sideEffectMemory
        else .next (acceptCommand n (s.setStatus s.status.cleared)) := rfl

/-- Every next state of a CTRL write. -/
theorem writeCtrl_next {start : Bool} {m : Mode} {o : BitOrder} {ie : Bool} {s t : State}
    (h : writeCtrl start m o ie s = .next t) :
    (s.status.busy = true ∧ t = s.setCtrl { s.ctrl with ie := ie }) ∨
    (s.status.busy = false ∧ start = false ∧ t = s.setCtrl { mode := m, order := o, ie := ie }) ∨
    (s.status.busy = false ∧ start = true ∧ ∃ e,
      validate m s.pixelCount s.srcAddr.toNat s.dstAddr.toNat = .error e ∧
      t = rejectCommand e ((s.setCtrl { mode := m, order := o, ie := ie }).setStatus s.status.cleared)) ∨
    (s.status.busy = false ∧ start = true ∧ ∃ n,
      validate m s.pixelCount s.srcAddr.toNat s.dstAddr.toNat = .ok n ∧ s.touchesSideEffects n = false ∧
      t = acceptCommand n ((s.setCtrl { mode := m, order := o, ie := ie }).setStatus s.status.cleared)) := by
  unfold writeCtrl at h
  split at h
  · exact .inl ⟨‹_›, by simpa using h.symm⟩
  · rename_i hb
    have hb : s.status.busy = false := by simpa using hb
    split at h
    · rename_i hs
      rw [startCommand_eq] at h
      split at h
      · rename_i e he
        exact .inr (.inr (.inl ⟨hb, hs, e, he, by simpa using h.symm⟩))
      · rename_i n hn
        split at h
        · cases h
        · rename_i ht
          exact .inr (.inr (.inr ⟨hb, hs, n, hn, (Bool.not_eq_true _).mp ht, by simpa using h.symm⟩))
    · rename_i hs
      exact .inr (.inl ⟨hb, by simpa using hs, by simpa using h.symm⟩)

/-- A CTRL write never faults. -/
theorem writeCtrl_no_fault {start : Bool} {m : Mode} {o : BitOrder} {ie : Bool} {s : State} {f : Fault} :
    writeCtrl start m o ie s ≠ .fault f := by
  unfold writeCtrl
  split
  · simp
  · split
    · rw [startCommand_eq]
      split
      · simp
      · split <;> simp
    · simp

/-- Each instruction is a CTRL write of its fields (30_encoding.md R71). -/
theorem exec_eq_writeCtrl (i : Instr) (s : State) : exec i s = writeCtrl i.start i.mode i.order i.ie s := by
  cases i <;> rfl

end Sys2Proof.Machine
end

