-- ==== Sys2Proof/Laws/Decode.lean ====
section
/-! SUPPORT. Decoding in terms of the word's value: the opcode is the word modulo 8. -/

namespace Sys2Proof

/-- The opcode mask 0x7 keeps the word modulo 8 (30_encoding.md R71). -/
theorem and_seven_eq_iff (w : Word) (k : Nat) (hk : k < 8) :
    w &&& 0x7#32 = BitVec.ofNat 32 k ↔ w.toNat % 8 = k := by
  rw [← BitVec.toNat_inj, BitVec.toNat_and, BitVec.toNat_ofNat, BitVec.toNat_ofNat,
    show (7 % 2 ^ 32 : Nat) = 2 ^ 3 - 1 by decide, Nat.and_two_pow_sub_one_eq_mod]
  omega

theorem getLsbD_zero_eq (w : Word) : w.getLsbD 0 = decide (w.toNat % 2 = 1) := by
  simp [BitVec.getLsbD, Nat.testBit_zero]

/-- The row of the opcode map a word falls under (30_encoding.md R71). -/
theorem decodeWord_eq (w : Word) :
    decodeWord w =
      if w.toNat % 8 = 1 then .convMono (ctrlOrderField w) (ctrlIeField w)
      else if w.toNat % 8 = 3 then .convGray8 (ctrlOrderField w) (ctrlIeField w)
      else if w.toNat % 8 = 5 then .convGray2 (ctrlOrderField w) (ctrlIeField w)
      else if w.toNat % 8 = 7 then .reservedMode (ctrlOrderField w) (ctrlIeField w)
      else .ctrlSet (ctrlModeField w) (ctrlOrderField w) (ctrlIeField w) := by
  simp only [decodeWord, and_seven_eq_iff w 1 (by decide), and_seven_eq_iff w 3 (by decide),
    and_seven_eq_iff w 5 (by decide), and_seven_eq_iff w 7 (by decide)]

/-- START is bit 0 of the word (30_encoding.md R70). -/
theorem decodeWord_start (w : Word) : (decodeWord w).start = w.getLsbD 0 := by
  rw [getLsbD_zero_eq, decodeWord_eq]
  repeat' split
  all_goals simp only [Instr.start]; symm
  all_goals first | (rw [decide_eq_true_eq]; omega) | (rw [decide_eq_false_iff_not]; omega)

/-- BIT_ORDER is bit 3 of the word (30_encoding.md R70). -/
theorem decodeWord_order (w : Word) : (decodeWord w).order = ctrlOrderField w := by
  rw [decodeWord_eq]; repeat' split
  all_goals rfl

/-- IE is bit 4 of the word (30_encoding.md R70). -/
theorem decodeWord_ie (w : Word) : (decodeWord w).ie = w.getLsbD 4 := by
  rw [decodeWord_eq]; repeat' split
  all_goals rfl

end Sys2Proof
end

