-- ==== Sys2Proof/Laws/Engine.lean ====
section
/-! SUPPORT. What a turn of the engine can do, said once. -/

namespace Sys2Proof.Machine

/-- No answer is a hang or an error when no access gets one. -/
theorem busAnswer_ok (pick : Bool) : busAnswer false false pick = .ok := rfl

theorem busAnswer_eq_ok_iff {f h p : Bool} : busAnswer f h p = .ok ↔ f = false ∧ h = false := by
  cases f <;> cases h <;> cases p <;> simp [busAnswer]

theorem busAnswer_eq_busErr {f h p : Bool} (e : busAnswer f h p = .busErr) : f = true := by
  cases f <;> cases h <;> cases p <;> simp_all [busAnswer]

theorem busAnswer_eq_hang {f h p : Bool} (e : busAnswer f h p = .hang) : h = true := by
  cases f <;> cases h <;> cases p <;> simp_all [busAnswer]

theorem groupInSpace_iff {s : State} {c : Conv} :
    s.groupInSpace c = true ↔
      s.srcAddr.toNat + 4 * (c.group * (s.engine.g + 1)) ≤ 2 ^ 32 ∧ s.dstAddr.toNat + s.engine.g < 2 ^ 32 := by
  rw [State.groupInSpace, Bool.and_eq_true, decide_eq_true_eq, decide_eq_true_eq]; rfl

/-- A group none of whose addresses gets the answer gets it at no read. -/
theorem groupHits_false {hit : Nat → Bool} {c : Conv} {src g d : Nat}
    (h : ∀ a, pixelAddr src (c.group * g) ≤ a → a < pixelAddr src (c.group * (g + 1)) → hit a = false) :
    groupHits hit c src g d = false := by
  rw [groupHits, List.any_eq_false]
  intro j hj
  have hj : j < c.group := by simpa using hj
  have key : ∀ k, k < 4 → hit (pixelAddr src (c.group * g + j) + k) = false := fun k hk =>
    h _ (by simp only [pixelAddr, Config.BYTES_PER_PIXEL]; omega)
      (by simp only [pixelAddr, Config.BYTES_PER_PIXEL, Nat.mul_add, Nat.mul_one] at *; omega)
  simp [pixelHits, key 1, key 2, key 3, show hit (pixelAddr src (c.group * g + j)) = false from key 0 (by omega)]

/-- The outcomes of a group step (40_command.md R105, 60_exceptions.md R182). -/
theorem groupStepOf_cases (c : Conv) (s : State) :
    (s.groupInSpace c = false ∧ groupStepOf c s = .fault .outsideAddressSpace) ∨
    (s.groupInSpace c = true ∧
      ((s.readAnswer c = .ok ∧ s.writeAnswer = .ok ∧ groupStepOf c s = .next (storeGroup c s).drawGroup) ∨
       ((s.readAnswer c = .busErr ∨ s.writeAnswer = .busErr) ∧ groupStepOf c s = .next (failBus s.drawGroup)) ∨
       ((s.readAnswer c = .hang ∨ s.writeAnswer = .hang) ∧ groupStepOf c s = .next (hangEngine s.drawGroup)))) := by
  unfold groupStepOf
  cases hs : s.groupInSpace c
  · exact .inl ⟨rfl, by simp⟩
  · refine .inr ⟨rfl, ?_⟩
    cases hr : s.readAnswer c <;> cases hw : s.writeAnswer <;> simp

/-- Every next state of the engine's turn (40_command.md R104). -/
theorem engineTurn_next {s t : State} (h : engineTurn s = .next t) :
    ((s.status.busy = false ∨ s.hung = true ∨ s.engine.len < s.engine.g) ∧ t = s) ∨
    (s.status.busy = true ∧ s.hung = false ∧ s.engine.g = s.engine.len ∧ t = completeStep s) ∨
    (s.status.busy = true ∧ s.hung = false ∧ s.engine.g < s.engine.len ∧ ∃ c, s.engine.mode.conv? = some c ∧
      s.groupInSpace c = true ∧
      ((s.readAnswer c = .ok ∧ s.writeAnswer = .ok ∧ t = (storeGroup c s).drawGroup) ∨
       ((s.readAnswer c = .busErr ∨ s.writeAnswer = .busErr) ∧ t = failBus s.drawGroup) ∨
       ((s.readAnswer c = .hang ∨ s.writeAnswer = .hang) ∧ t = hangEngine s.drawGroup))) := by
  unfold engineTurn at h
  split at h
  · rename_i hb
    simp only [Bool.and_eq_true, Bool.not_eq_true'] at hb
    split at h
    · rename_i hg
      refine .inr (.inr ⟨hb.1, hb.2, hg, ?_⟩)
      unfold groupStep at h
      split at h
      · rename_i c hc
        rcases groupStepOf_cases c s with ⟨-, he⟩ | ⟨hs, hcs⟩
        · rw [he] at h; cases h
        · refine ⟨c, hc, hs, ?_⟩
          rcases hcs with ⟨h1, h2, he⟩ | ⟨h1, he⟩ | ⟨h1, he⟩ <;> rw [he] at h <;> cases h <;> simp [h1]
          exact .inl h2
      · cases h
    · split at h
      · exact .inr (.inl ⟨hb.1, hb.2, ‹_›, by simpa using h.symm⟩)
      · exact .inl ⟨.inr (.inr (by omega)), by simpa using h.symm⟩
  · rename_i hb
    refine .inl ⟨?_, by simpa using h.symm⟩
    cases h1 : s.status.busy <;> cases h2 : s.hung <;> simp_all

/-- The engine's turn never refuses. -/
theorem engineTurn_no_refusal {s : State} {r : Refusal} : engineTurn s ≠ .refused r := by
  unfold engineTurn groupStep
  repeat' split
  any_goals simp
  rename_i c _
  rcases groupStepOf_cases c s with ⟨-, he⟩ | ⟨-, ⟨-, -, he⟩ | ⟨-, he⟩ | ⟨-, he⟩⟩ <;> simp [he]

end Sys2Proof.Machine
end

