-- ==== Sys2Proof/Laws/Memory.lean ====
section
/-! SUPPORT. Memory: the canonical form is kept by every operation, a read after a write to the same address gives the
value written, and a write leaves every other address alone. -/

namespace Sys2Proof.Machine

theorem Memory.wfFrom_mono {m : Memory} {lo lo' : Nat} (hle : lo' ≤ lo) (h : Memory.wfFrom lo m = true) :
    Memory.wfFrom lo' m = true := by
  cases m with
  | nil => rfl
  | cons c m =>
    obtain ⟨a, v⟩ := c
    simp only [Memory.wfFrom, Bool.and_eq_true, decide_eq_true_eq] at h ⊢
    exact ⟨⟨⟨by omega, h.1.1.2⟩, h.1.2⟩, h.2⟩

/-- Below every listed address memory reads as unlisted. -/
theorem Memory.read_below {m : Memory} {lo a : Nat} (h : Memory.wfFrom lo m = true) (ha : a < lo) :
    Memory.read m a = Config.unlistedByte := by
  cases m with
  | nil => rfl
  | cons c m =>
    obtain ⟨b, w⟩ := c
    simp only [Memory.wfFrom, Bool.and_eq_true, decide_eq_true_eq] at h
    simp [Memory.read, show a < b by omega]

theorem Memory.write_wfFrom {m : Memory} {lo a : Nat} (v : Byte) (h : Memory.wfFrom lo m = true)
    (hlo : lo ≤ a) (ha : a < Config.addrSpace) : Memory.wfFrom lo (Memory.write m a v) = true := by
  induction m generalizing lo with
  | nil => by_cases hv : v = Config.unlistedByte <;> simp [Memory.write, Memory.wfFrom, hv, hlo, ha]
  | cons c m ih =>
    obtain ⟨b, w⟩ := c
    have h' := h
    simp only [Memory.wfFrom, Bool.and_eq_true, decide_eq_true_eq] at h'
    obtain ⟨⟨⟨hb, hbs⟩, hw⟩, hm⟩ := h'
    simp only [Memory.write]
    split
    · rename_i hab
      split
      · exact h
      · rename_i hv
        simp only [Memory.wfFrom, Bool.and_eq_true, decide_eq_true_eq]
        exact ⟨⟨⟨hlo, ha⟩, hv⟩, ⟨⟨by omega, hbs⟩, hw⟩, hm⟩
    · split
      · rename_i hab
        subst hab
        split
        · exact Memory.wfFrom_mono (by omega) hm
        · rename_i hv
          simp only [Memory.wfFrom, Bool.and_eq_true, decide_eq_true_eq]
          exact ⟨⟨⟨hlo, ha⟩, hv⟩, hm⟩
      · simp only [Memory.wfFrom, Bool.and_eq_true, decide_eq_true_eq]
        exact ⟨⟨⟨hb, hbs⟩, hw⟩, ih hm (by omega)⟩

theorem Memory.read_write_from {m : Memory} {lo : Nat} (a b : Nat) (v : Byte) (h : Memory.wfFrom lo m = true) :
    Memory.read (Memory.write m a v) b = if b = a then v else Memory.read m b := by
  induction m generalizing lo with
  | nil =>
    by_cases hv : v = Config.unlistedByte
    · by_cases hb : b = a <;> simp [Memory.write, Memory.read, hv, hb]
    · by_cases hb : b = a
      · simp [Memory.write, Memory.read, hv, hb]
      · simp only [Memory.write, Memory.read, hv, hb, if_false]
        split <;> rfl
  | cons c m ih =>
    obtain ⟨d, w⟩ := c
    simp only [Memory.wfFrom, Bool.and_eq_true, decide_eq_true_eq] at h
    obtain ⟨⟨⟨hd, -⟩, hw⟩, hm⟩ := h
    simp only [Memory.write]
    split
    · rename_i had
      split
      · rename_i hv
        by_cases hb : b = a
        · subst hb; simp [Memory.read, had, hv]
        · simp [hb]
      · by_cases hb : b = a
        · simp [Memory.read, hb]
        · simp only [Memory.read, hb, if_false]
          by_cases hba : b < a
          · simp [hba, show b < d by omega]
          · simp [hba]
    · split
      · rename_i had
        subst had
        split
        · rename_i hv
          by_cases hb : b = a
          · subst hb; simp [hv, Memory.read_below hm (show b < b + 1 by omega)]
          · simp only [hb, if_false, Memory.read]
            by_cases hba : b < a
            · simp [hba, Memory.read_below hm (show b < a + 1 by omega)]
            · simp [hba]
        · by_cases hb : b = a
          · simp [Memory.read, hb]
          · simp [Memory.read, hb]
      · simp only [Memory.read]
        rw [ih hm]
        by_cases hb : b = a
        · subst hb
          simp_all
        · simp [hb]

/-- A write keeps the canonical form. -/
theorem Memory.write_wf {m : Memory} {a : Nat} (v : Byte) (h : m.wf = true) (ha : a < Config.addrSpace) :
    (m.write a v).wf = true := Memory.write_wfFrom v h (Nat.zero_le a) ha

/-- Reading after a write, at any address. -/
theorem Memory.read_write {m : Memory} (a b : Nat) (v : Byte) (h : m.wf = true) :
    (m.write a v).read b = if b = a then v else m.read b := Memory.read_write_from a b v h

theorem Memory.read_write_same {m : Memory} (a : Nat) (v : Byte) (h : m.wf = true) :
    (m.write a v).read a = v := by simp [Memory.read_write a a v h]

theorem Memory.read_write_other {m : Memory} {a b : Nat} (v : Byte) (h : m.wf = true) (hb : b ≠ a) :
    (m.write a v).read b = m.read b := by simp [Memory.read_write a b v h, hb]

/-- Drawing a range freely keeps the canonical form. -/
theorem Memory.drawBytes_wf {m : Memory} {a n : Nat} (d : Nat) (h : m.wf = true) (ha : a + n ≤ Config.addrSpace) :
    (m.drawBytes a n d).wf = true := by
  induction n generalizing m a d with
  | zero => exact h
  | succ n ih => exact ih (d + 1) (Memory.write_wf _ h (by omega)) (by omega)

/-- Drawing a range freely leaves every byte outside it alone. -/
theorem Memory.read_drawBytes_outside {m : Memory} {a n b : Nat} (d : Nat) (h : m.wf = true)
    (ha : a + n ≤ Config.addrSpace) (hb : b < a ∨ a + n ≤ b) : (m.drawBytes a n d).read b = m.read b := by
  induction n generalizing m a d with
  | zero => rfl
  | succ n ih =>
    rw [Memory.drawBytes, ih (d + 1) (Memory.write_wf _ h (by omega)) (by omega) (by omega),
      Memory.read_write_other _ h (by omega)]

/-- Byte `i` of a drawn range holds draw `d + i`. -/
theorem Memory.read_drawBytes_inside {m : Memory} {a n i : Nat} (d : Nat) (h : m.wf = true)
    (ha : a + n ≤ Config.addrSpace) (hi : i < n) :
    (m.drawBytes a n d).read (a + i) = Config.freeByte (d + i) := by
  induction n generalizing m a d i with
  | zero => omega
  | succ n ih =>
    have hw := Memory.write_wf (Config.freeByte d) h (show a < Config.addrSpace by omega)
    rw [Memory.drawBytes]
    cases i with
    | zero =>
      rw [Memory.read_drawBytes_outside (d + 1) hw (by omega) (by omega)]
      exact Memory.read_write_same a _ h
    | succ i =>
      have := ih (a := a + 1) (i := i) (d + 1) hw (by omega) (by omega)
      rw [show a + (i + 1) = a + 1 + i by omega, this]
      congr 1; omega

end Sys2Proof.Machine
end

