-- ==== Sys2Proof/Laws/Host.lean ====
section
/-! SUPPORT. What a host operation and a step can do, said once: the register an access reaches, and the inversion of
`hostStep` and `step`. -/

namespace Sys2Proof.Machine

/-! ### Registers -/

theorem hostReg_misaligned {off bytes : Nat} (h : bytes ≠ 4 ∨ off % 4 ≠ 0) :
    hostReg off bytes = .error .notAlignedWordAccess := by simp only [hostReg, if_pos h]

/-- Why an access reaches no register. -/
theorem hostReg_error {off bytes : Nat} {e : Refusal} (h : hostReg off bytes = .error e) :
    (e = .notAlignedWordAccess ∧ (bytes ≠ 4 ∨ off % 4 ≠ 0)) ∨ (e = .outsideWindow ∧ 32 ≤ off) := by
  by_cases hb : bytes ≠ 4 ∨ off % 4 ≠ 0
  · rw [hostReg_misaligned hb] at h
    cases h
    exact .inl ⟨rfl, hb⟩
  · rw [hostReg, if_neg hb] at h
    split at h
    · cases h
    · rename_i hn
      cases h
      refine .inr ⟨rfl, ?_⟩
      simp only [Reg.ofOffset] at hn
      repeat (split at hn; · cases hn)
      omega

/-- The register an access reaches determines its offset (10_state.md R23). -/
theorem hostReg_ok {off bytes : Nat} {r : Reg} (h : hostReg off bytes = .ok r) :
    bytes = 4 ∧ (r = .ctrl ∧ off = 0x00 ∨ r = .status ∧ off = 0x04 ∨ r = .srcAddr ∧ off = 0x08 ∨
      r = .dstAddr ∧ off = 0x0C ∨ r = .width ∧ off = 0x10 ∨ r = .height ∧ off = 0x14 ∨
      r = .outlen ∧ off = 0x18 ∨ r = .rsvd ∧ off = 0x1C) := by
  by_cases hb : bytes ≠ 4 ∨ off % 4 ≠ 0
  · rw [hostReg_misaligned hb] at h; cases h
  · rw [hostReg, if_neg hb] at h
    refine ⟨by omega, ?_⟩
    split at h
    · rename_i q hq
      cases h
      simp only [Reg.ofOffset] at hq
      repeat' split at hq
      all_goals first | (cases hq; simp_all) | cases hq
    · cases h

/-- Writing an argument register (10_state.md R29). -/
theorem writeArg_busy {s : State} (r : Reg) (v : Word) (h : s.status.busy = true) : s.writeArg r v = s := by
  simp [State.writeArg, h]

theorem writeArg_idle {s : State} (r : Reg) (v : Word) (h : s.status.busy = false) :
    s.writeArg r v = s.setArg r v := by simp [State.writeArg, h]

/-- Every next state of a register write: a CTRL write, a W1C write of STATUS, storage while idle, or nothing. -/
theorem writeReg_next {r : Reg} {v : Word} {s t : State} (h : writeReg r v s = .next t) :
    (r = .ctrl ∧ writeCtrl (decodeWord v).start (decodeWord v).mode (decodeWord v).order (decodeWord v).ie s =
      .next t) ∨
    (r = .status ∧ t = ackStatus v s) ∨
    (r.isArg = true ∧ s.status.busy = false ∧ t = s.setArg r v) ∨
    (r ≠ .ctrl ∧ r ≠ .status ∧ t = s) := by
  cases r <;> simp only [writeReg, exec_eq_writeCtrl, Host.Outcome.next.injEq] at h
  case ctrl => exact .inl ⟨rfl, h⟩
  case status => exact .inr (.inl ⟨rfl, h.symm⟩)
  case outlen => exact .inr (.inr (.inr ⟨by simp, by simp, h.symm⟩))
  case rsvd => exact .inr (.inr (.inr ⟨by simp, by simp, h.symm⟩))
  all_goals
    cases hb : s.status.busy
    · rw [writeArg_idle _ _ hb] at h
      exact .inr (.inr (.inl ⟨rfl, rfl, h.symm⟩))
    · rw [writeArg_busy _ _ hb] at h
      exact .inr (.inr (.inr ⟨by simp, by simp, h.symm⟩))

/-- A register write refuses only at the START of a command that passes the checks on side-effect memory. -/
theorem writeReg_refused {r : Reg} {v : Word} {s : State} {e : Refusal} (h : writeReg r v s = .refused e) :
    r = .ctrl ∧ e = .sideEffectMemory ∧ s.StartTouchesSideEffects v := by
  cases r <;> simp only [writeReg, exec_eq_writeCtrl] at h
  case ctrl =>
    unfold writeCtrl at h
    split at h
    · cases h
    · rename_i hb
      split at h
      · rename_i hs
        rw [startCommand_eq] at h
        split at h
        · cases h
        · rename_i n hn
          split at h
          · rename_i ht
            cases h
            exact ⟨rfl, rfl, by simpa using hb, (decodeWord_start v).symm.trans hs, n, hn, touchesSideEffects_iff.1 ht⟩
          · cases h
      · cases h
  all_goals cases h

theorem writeReg_no_fault {r : Reg} {v : Word} {s : State} {f : Fault} : writeReg r v s ≠ .fault f := by
  cases r <;> simp only [writeReg, exec_eq_writeCtrl] <;> first | exact writeCtrl_no_fault | simp

/-! ### Loads, stores and reads -/

/-- A read of a register changes only the results and, at a STATUS read that shows BUSY = 0, the unobserved commands. -/
theorem noteRead_eq (r : Reg) (s : State) :
    noteRead r s = { s with unsynced := (noteRead r s).unsynced } ∧
    ((noteRead r s).unsynced = s.unsynced ∨ (s.status.busy = false ∧ (noteRead r s).unsynced = [])) := by
  unfold noteRead
  split
  · rename_i h; exact ⟨rfl, .inr ⟨h.2, rfl⟩⟩
  · exact ⟨rfl, .inl rfl⟩

/-- A host load changes only the results and the draws. -/
theorem loadByte_eq (a : Nat) (s : State) :
    loadByte a s = { s with results := (loadByte a s).results, draws := (loadByte a s).draws } := by
  unfold loadByte; split <;> rfl

@[simp] theorem Transfer.settle_dst (a : Nat) (v : Byte) (t : Transfer) : (t.settle a v).dst = t.dst := by
  unfold Transfer.settle; split <;> rfl

@[simp] theorem Transfer.settle_len (a : Nat) (v : Byte) (t : Transfer) : (t.settle a v).len = t.len := by
  unfold Transfer.settle; split <;> rfl

@[simp] theorem Transfer.settle_has (a b : Nat) (v : Byte) (t : Transfer) : (t.settle a v).has b = t.has b := by
  simp [Transfer.has]

/-- A store changes no old value but that of the byte stored. -/
theorem Transfer.settle_read_other {a b : Nat} {v : Byte} {t : Transfer} (hw : t.old.wf = true) (h : b ≠ a) :
    (t.settle a v).old.read b = t.old.read b := by
  unfold Transfer.settle
  split
  · exact Memory.read_write_other _ hw h
  · rfl

/-- After a store to a byte of the range the only old value of the byte is the one stored. -/
theorem Transfer.settle_read_same {a : Nat} {v : Byte} {t : Transfer} (hw : t.old.wf = true) (h : t.has a = true) :
    (t.settle a v).old.read a = v := by
  rw [Transfer.settle, if_pos h]; exact Memory.read_write_same _ _ hw

theorem Transfer.settle_wf {a : Nat} {v : Byte} {t : Transfer} (hw : t.old.wf = true) (ha : a < Config.addrSpace) :
    (t.settle a v).old.wf = true := by
  unfold Transfer.settle
  split
  · exact Memory.write_wf _ hw ha
  · exact hw

/-- One of the listed values is drawn. -/
theorem drawFrom_mem (d : Nat) {vs : List Byte} (h : vs ≠ []) : drawFrom d vs ∈ vs := by
  have hl : Config.freeIndex d % vs.length < vs.length := Nat.mod_lt _ (List.length_pos_iff.2 h)
  rw [drawFrom, List.getD_eq_getElem _ _ hl]
  exact List.getElem_mem hl

/-- After a host store while no command runs, a load of the byte returns what was stored (20_memory.md R59), whatever
commands are unobserved. -/
theorem loadByte_storeByte {a : Nat} {v : Byte} {s : State} (hm : s.mem.wf = true)
    (ho : ∀ t ∈ s.unsynced, t.old.wf = true) (hb : s.status.busy = false) :
    (loadByte a (storeByte a v s)).results = .byte v :: s.results := by
  have hr : (s.mem.write a v).read a = v := Memory.read_write_same _ _ hm
  have hd : (storeByte a v s).inDest a = false := by simp [State.inDest, storeByte, hb]
  unfold loadByte
  split
  · have hf : (storeByte a v s).finalByte a = v := by
      unfold State.finalByte; rw [hd]; exact hr
    have hv : ∀ w ∈ (storeByte a v s).candidates a, w = v := by
      intro w hw
      rw [State.candidates, hf] at hw
      rcases List.mem_cons.1 hw with rfl | hw
      · rfl
      · simp only [storeByte, List.mem_map, List.mem_filter] at hw
        obtain ⟨t', ⟨⟨t, ht, rfl⟩, hh⟩, rfl⟩ := hw
        exact Transfer.settle_read_same (ho t ht) (by simpa using hh)
    have hu : (storeByte a v s).unsettledByte a = v := by
      rw [State.unsettledByte, hd, Bool.and_false]
      exact hv _ (drawFrom_mem _ (by simp [State.candidates]))
    simp only [State.pushResult, hu]; rfl
  · simp only [State.pushResult, storeByte, hr]

/-- The reset input's effect on memory: none, or free values in the running command's destination range. -/
theorem resetBlock_mem (s : State) :
    (resetBlock s).mem = if s.status.busy then s.drawDest.mem else s.mem := by
  unfold resetBlock; split <;> rfl

/-- A byte access refuses on the window and on devices only. -/
theorem byteAccessRefusal_some {p : Platform} {a : Nat} {e : Refusal} (h : byteAccessRefusal p a = some e) :
    (e = .notAlignedWordAccess ∧ p.window.has a = true) ∨
    (e = .hostDeviceAccess ∧ ∃ d ∈ p.devices, d.has a = true) := by
  unfold byteAccessRefusal at h
  split at h
  · cases h; exact .inl ⟨rfl, ‹_›⟩
  · split at h
    · rename_i hd
      cases h
      exact .inr ⟨rfl, by simpa using hd⟩
    · cases h

theorem byteAccessRefusal_none {p : Platform} {a : Nat} (h : ∀ r ∈ p.sideEffects, r.has a = false) :
    byteAccessRefusal p a = none := by
  have h1 : p.window.has a = false := h _ (by simp [Platform.sideEffects])
  have h2 : (p.devices.any fun r => r.has a) = false := by
    rw [List.any_eq_false]
    intro r hr
    simp [h r (by simp [Platform.sideEffects, hr])]
  simp [byteAccessRefusal, h1, h2]

/-! ### One operation, one step -/

/-- Every next state of a host operation. -/
theorem hostStep_next {op : HostOp} {s t : State} (h : hostStep op s = .next t) :
    (∃ off r v, (op = .regWrite off 4 v ∨ op = .secondHostWrite off v) ∧ hostReg off 4 = .ok r ∧
      writeReg r v s = .next t) ∨
    (∃ off r, op = .regRead off 4 ∧ hostReg off 4 = .ok r ∧ t = readRegOp r s) ∨
    (∃ off mask val r, op = .poll off mask val ∧ hostReg off 4 = .ok r ∧ t = pollOp r off mask val s) ∨
    (∃ a v, op = .sb a v ∧ t = storeByte a.toNat v s) ∨
    (∃ a, op = .lb a ∧ t = loadByte a.toNat s) ∨
    (op = .reset ∧ t = resetBlock s) := by
  cases op <;> simp only [hostStep] at h
  case regWrite off bytes v =>
    split at h
    · rename_i r hr
      obtain ⟨rfl, -⟩ := hostReg_ok hr
      exact .inl ⟨off, r, v, .inl rfl, hr, h⟩
    · cases h
  case regRead off bytes =>
    split at h
    · rename_i r hr
      obtain ⟨rfl, -⟩ := hostReg_ok hr
      exact .inr (.inl ⟨off, r, rfl, hr, by simpa using h.symm⟩)
    · cases h
  case poll off mask val =>
    split at h
    · rename_i r hr
      exact .inr (.inr (.inl ⟨off, mask, val, r, rfl, hr, by simpa using h.symm⟩))
    · cases h
  case sb a v =>
    split at h
    · cases h
    · exact .inr (.inr (.inr (.inl ⟨a, v, rfl, by simpa using h.symm⟩)))
  case lb a =>
    split at h
    · cases h
    · exact .inr (.inr (.inr (.inr (.inl ⟨a, rfl, by simpa using h.symm⟩))))
  case reset => exact .inr (.inr (.inr (.inr (.inr ⟨rfl, by simpa using h.symm⟩))))
  case secondHostWrite off v =>
    split at h
    · rename_i r hr
      split at h
      · cases h
      · exact .inl ⟨off, r, v, .inr rfl, hr, h⟩
    · cases h

theorem hostStep_no_fault {op : HostOp} {s : State} {f : Fault} : hostStep op s ≠ .fault f := by
  cases op <;> simp only [hostStep] <;> repeat' split
  all_goals first | exact writeReg_no_fault | simp

/-- A step is an engine turn or a host operation, on the state whose schedule has lost the event. -/
theorem step_cases (s : State) :
    (s.schedule = [] ∧ step s = engineTurn s) ∨
    (∃ rest, s.schedule = .engine :: rest ∧ step s = engineTurn { s with schedule := rest }) ∨
    (∃ op rest, s.schedule = .host op :: rest ∧ step s = hostStep op { s with schedule := rest }) := by
  cases hs : s.schedule with
  | nil => exact .inl ⟨rfl, by simp [step, hs]⟩
  | cons e rest =>
    cases e with
    | engine => exact .inr (.inl ⟨rest, rfl, by simp [step, hs, runEvent]⟩)
    | host op => exact .inr (.inr ⟨op, rest, rfl, by simp [step, hs, runEvent]⟩)

end Sys2Proof.Machine
end

