-- ==== Sys2Proof/Laws/PerInstr.lean ====
section
/-! SUPPORT. Facts about each instruction as syntax, one lemma per constructor. -/

namespace Sys2Proof.Laws.ReservedBitsZero

/-- The word of the instruction has zero reserved bits (30_encoding.md R70). -/
def Statement (i : Instr) : Prop := ctrlWordWf (encode i) = true

theorem convMono (o : BitOrder) (ie : Bool) : Statement (.convMono o ie) := by
  cases o <;> cases ie <;> rfl

theorem convGray8 (o : BitOrder) (ie : Bool) : Statement (.convGray8 o ie) := by
  cases o <;> cases ie <;> rfl

theorem convGray2 (o : BitOrder) (ie : Bool) : Statement (.convGray2 o ie) := by
  cases o <;> cases ie <;> rfl

theorem reservedMode (o : BitOrder) (ie : Bool) : Statement (.reservedMode o ie) := by
  cases o <;> cases ie <;> rfl

theorem ctrlSet (m : Mode) (o : BitOrder) (ie : Bool) : Statement (.ctrlSet m o ie) := by
  cases m <;> cases o <;> cases ie <;> rfl

end Sys2Proof.Laws.ReservedBitsZero
end

