-- ==== Sys2Proof/Laws/Running.lean ====
section
/-! SUPPORT. What the invariant gives of a running command: its ranges, its mode, and where its accesses lie; and how a
group's byte depends on memory. -/

namespace Sys2Proof.Machine

/-- A running command selects a conversion (40_command.md R105). -/
theorem State.Running.conv {s : State} (h : s.Running) : ∃ c : Conv, s.engine.mode = c.mode := by
  have hv := h.valid
  unfold State.validated at hv
  obtain ⟨c, hc, -⟩ := validate_ok hv
  exact ⟨c, h.mode.trans (mode_of_conv? hc)⟩

/-- The sizes and ranges of a running command (40_command.md R103). -/
theorem State.Running.ranges {s : State} {c : Conv} (h : s.Running) (hm : s.engine.mode = c.mode) :
    s.pixelCount % 8 = 0 ∧ s.engine.len = s.pixelCount * c.bpp / 8 ∧
    s.srcAddr.toNat + 4 * s.pixelCount ≤ 2 ^ 32 ∧ s.dstAddr.toNat + s.engine.len ≤ 2 ^ 32 ∧
    (∀ a, ¬(s.srcAddr.toNat ≤ a ∧ a < s.srcAddr.toNat + 4 * s.pixelCount ∧
      s.dstAddr.toNat ≤ a ∧ a < s.dstAddr.toNat + s.engine.len)) ∧
    (∀ g, g < s.engine.len → c.group * (g + 1) ≤ s.pixelCount) := by
  have hv := h.valid
  unfold State.validated at hv
  rw [← h.mode, hm] at hv
  obtain ⟨c', hc, hd, hl, hs, ht, ha⟩ := validate_ok hv
  rw [conv?_mode] at hc
  cases hc
  refine ⟨hd, hl, hs, ht, ?_, ?_⟩
  · rintro a ⟨h1, h2, h3, h4⟩
    have := ha (by omega)
    omega
  · intro g hg
    rw [hl] at hg
    calc c.group * (g + 1) ≤ c.group * outputLength c s.pixelCount := Nat.mul_le_mul_left _ hg
      _ = s.pixelCount := group_mul_outputLength hd

/-- The destination range of a running command exists (40_command.md R103). -/
theorem State.Inv.dest_in_space {s : State} (hI : s.Inv) (hb : s.status.busy = true) :
    s.dstAddr.toNat + s.engine.len ≤ Config.addrSpace := by
  obtain ⟨c, hm⟩ := (hI.running hb).conv
  exact ((hI.running hb).ranges hm).2.2.2.1

/-- No group of a running command leaves the address space. -/
theorem State.Running.groupInSpace {s : State} {c : Conv} (h : s.Running) (hm : s.engine.mode = c.mode)
    (hg : s.engine.g < s.engine.len) : s.groupInSpace c = true := by
  obtain ⟨-, -, h1, h2, -, h3⟩ := h.ranges hm
  have := h3 _ hg
  rw [groupInSpace_iff]
  omega

/-- The reads of a running command's group lie in its source range. -/
theorem State.Running.groupHits_false {s : State} {c : Conv} {hit : Nat → Bool} {d : Nat} (h : s.Running)
    (hm : s.engine.mode = c.mode) (hg : s.engine.g < s.engine.len)
    (hf : ∀ a, s.srcAddr.toNat ≤ a → a < s.srcAddr.toNat + 4 * s.pixelCount → hit a = false) :
    groupHits hit c s.srcAddr.toNat s.engine.g d = false := by
  have := (h.ranges hm).2.2.2.2.2 _ hg
  apply Machine.groupHits_false
  intro a ha hb
  simp only [pixelAddr, Config.BYTES_PER_PIXEL] at ha hb
  exact hf a (by omega) (by omega)

/-- The engine's turn of a running command that is inside its output is the group step of its conversion. -/
theorem engineTurn_group {s : State} {c : Conv} (hb : s.status.busy = true) (hh : s.hung = false)
    (hg : s.engine.g < s.engine.len) (hm : s.engine.mode = c.mode) : engineTurn s = groupStepOf c s := by
  simp only [engineTurn, hb, hh, groupStep, hm, conv?_mode, Bool.not_false, Bool.and_self, if_true, hg]

/-- Output byte `g` depends on memory through its group's pixels alone (40_command.md R105). -/
theorem groupByte_congr {c : Conv} {m m' : Memory} {src src' g : Nat} {o : BitOrder}
    (h : ∀ j, j < c.group → readPixel m src (c.group * g + j) = readPixel m' src' (c.group * g + j)) :
    groupByte c m src g o = groupByte c m' src' g o := by
  cases c
  · simp only [groupByte, groupByteMono]
    congr 1
    apply List.map_congr_left
    intro j hj
    have := h j (List.mem_range.1 hj)
    simp only [Conv.group] at this
    rw [this]
  · have := h 0 (by decide)
    simp only [Conv.group, Nat.add_zero] at this
    simp only [groupByte, groupByteGray8, this]
  · simp only [groupByte, groupByteGray2]
    congr 1
    apply List.map_congr_left
    intro j hj
    have := h j (List.mem_range.1 hj)
    simp only [Conv.group] at this
    rw [this]

/-! ### Runs -/

theorem run_succ_next {k : Nat} {s t : State} (h : step s = .next t) :
    Host.Core.run Sys2Proof.core (k + 1) s = Host.Core.run Sys2Proof.core k t := by
  have h : Sys2Proof.core.step s = .next t := h
  simp only [Host.Core.run, h]

theorem run_succ_inv {k : Nat} {s t : State} (h : Host.Core.run Sys2Proof.core (k + 1) s = .next t) :
    ∃ u : State, step s = .next u ∧ Host.Core.run Sys2Proof.core k u = .next t := by
  cases hs : step s with
  | next u => rw [run_succ_next hs] at h; exact ⟨u, rfl, h⟩
  | fault r =>
    have hs : Sys2Proof.core.step s = .fault r := hs
    simp [Host.Core.run, hs] at h
  | refused r =>
    have hs : Sys2Proof.core.step s = .refused r := hs
    simp [Host.Core.run, hs] at h

/-- A run of `k` steps and one step more. -/
theorem run_snoc {k : Nat} {s t u : State} (h : Host.Core.run Sys2Proof.core k s = .next t) (h2 : step t = .next u) :
    Host.Core.run Sys2Proof.core (k + 1) s = .next u := by
  induction k generalizing s with
  | zero =>
    have : s = t := by simp only [Host.Core.run] at h; cases h; rfl
    subst this
    rw [run_succ_next h2]; rfl
  | succ k ih =>
    obtain ⟨v, h3, h4⟩ := run_succ_inv h
    rw [run_succ_next h3]
    exact ih h4

end Sys2Proof.Machine
end

