-- ==== Sys2Proof/Tests/Slice0.lean ====
section
/-! SUPPORT. The model's own tests, with expected results from the spec (95_test_vectors.md ids in the comments), and
the witnesses that the hypotheses of the statements can be met. -/

namespace Sys2Proof.Tests

open Sys2Proof.Machine

-- One theorem after another: the tests' kernel evaluations would otherwise wait on each other in many threads.
set_option Elab.async false

/-! ### Helpers -/

/-- The outcome is a next state with the property. -/
def nextHas (o : Host.Outcome State Fault Refusal) (p : State → Bool) : Bool :=
  match o with
  | .next t => p t
  | .fault _ => false
  | .refused _ => false

/-- The outcome is that refusal. -/
def refusesWith (o : Host.Outcome State Fault Refusal) (r : Refusal) : Bool :=
  match o with
  | .next _ => false
  | .fault _ => false
  | .refused q => decide (q = r)

theorem nextHas_spec {o : Host.Outcome State Fault Refusal} {p : State → Bool} (h : nextHas o p = true) :
    ∃ t, o = .next t ∧ p t = true := by
  cases o with
  | next t => exact ⟨t, rfl, h⟩
  | fault f => cases h
  | refused r => cases h

theorem refusesWith_spec {o : Host.Outcome State Fault Refusal} {r : Refusal} (h : refusesWith o r = true) :
    o = .refused r := by
  cases o with
  | next t => cases h
  | fault f => cases h
  | refused q => simp only [refusesWith, decide_eq_true_eq] at h; rw [h]

/-- Reset, with the argument registers programmed. -/
def ready (src dst w h : Word) : State :=
  { State.reset with srcAddr := src, dstAddr := dst, width := w, height := h }

/-- The arguments most vectors use: an 8x1 raster at 0x1000, its output at 0x2000. -/
def ready8 : State := ready 0x1000#32 0x2000#32 8#32 1#32

/-- Memory with a list of bytes stored from an address on. -/
def storeAll (a : Nat) (bytes : List Byte) (m : Memory) : Memory :=
  (bytes.foldl (fun p v => (p.1 + 1, Memory.write p.2 p.1 v)) (a, m)).2

/-- A raster of (R,G,B) pixels with alpha 0xFF, stored at an address. -/
def raster (a : Nat) (ps : List (Nat × Nat × Nat)) : Memory :=
  storeAll a (ps.flatMap fun p => [BitVec.ofNat 8 p.1, BitVec.ofNat 8 p.2.1, BitVec.ofNat 8 p.2.2, 255#8]) []

/-- The raster of program P1: black and white alternating. -/
def rasterP1 : Memory :=
  raster 0x1000 [(0, 0, 0), (255, 255, 255), (0, 0, 0), (255, 255, 255), (0, 0, 0), (255, 255, 255), (0, 0, 0),
    (255, 255, 255)]

/-- The raster of program P2. -/
def rasterP2 : Memory :=
  raster 0x1000 [(255, 255, 255), (150, 150, 150), (100, 100, 100), (10, 10, 10), (64, 64, 65), (64, 65, 65),
    (192, 192, 193), (193, 193, 193)]

/-- The running command of conversion `c` on `ready8`, at output byte `g`, on a platform. -/
def busyOn (c : Conv) (g : Nat) (p : Platform) : State :=
  { ready8 with
    ctrl := { mode := c.mode, order := .msbFirst, ie := false }
    status := { busy := true, done := false, err := false, errcode := 0#4 }
    outlen := BitVec.ofNat 32 (outputLength c 8)
    engine := { g := g, len := outputLength c 8, mode := c.mode, order := .msbFirst }
    unsynced := [{ dst := 0x2000, len := outputLength c 8, old := [] }]
    platform := p }

/-- A running command on a platform that answers every access. -/
def busyAt (c : Conv) (g : Nat) : State := busyOn c g Platform.ordinary

/-- A platform with one address whose accesses of one kind get an error response. -/
def faultAt (k : AccessKind) (a : Nat) : Platform :=
  { Platform.ordinary with faults := [{ kind := k, lo := a, len := 1 }] }

/-- A platform with one address whose accesses of one kind never get a response. -/
def hangAt (k : AccessKind) (a : Nat) : Platform :=
  { Platform.ordinary with hangs := [{ kind := k, lo := a, len := 1 }] }

/-- A command that has ended with DONE, and one that was rejected with ERR_DIM. -/
def doneState : State := { ready8 with status := { busy := false, done := true, err := false, errcode := 0#4 } }
def errState : State := { ready8 with status := { busy := false, done := false, err := true, errcode := 2#4 } }

/-- A state with one event scheduled. -/
def withEvent (e : Event) (s : State) : State := { s with schedule := [e] }

/-! ### Well-formedness (the smoke test: each check refuses an ill-formed term) -/

theorem test_wf_refuses_reserved_bits : ctrlWordWf 0x00000021#32 = false ∧ ctrlWordWf 0x80000001#32 = false ∧
    ctrlWordWf 0x0000001F#32 = true := by decide

theorem test_wf_refuses_gray8_lsb : CmdForm.wf { conv := .gray8, lsb := true, ie := false } = false ∧
    Stmt.wf (.cmd { conv := .gray8, lsb := true, ie := true }) = false ∧
    Stmt.wf (.conv { conv := .gray8, lsb := true, ie := false } 0#32 0#32 8#32 1#32) = false ∧
    Stmt.wf (.cmd { conv := .gray2, lsb := true, ie := true }) = true := by decide

theorem test_wf_refuses_offsets : Stmt.wf (.w32 0x02 0#32) = false ∧ Stmt.wf (.r32 0x20) = false ∧
    Stmt.wf (.poll 0x05 0#32 0#32) = false ∧ Stmt.wf (.w32 0x1C 0#32) = true := by decide

/-! ### Decoding: words written out bit by bit from 30_encoding.md R70, R71, R77 -/

theorem test_decode_convMono :
    decodeWord 0b00000000000000000000000000001001#32 = .convMono .lsbFirst false ∧
    decodeWord 0b00000000000000000000000000010001#32 = .convMono .msbFirst true := by decide

theorem test_decode_convGray8 :
    decodeWord 0b00000000000000000000000000010011#32 = .convGray8 .msbFirst true ∧
    decodeWord 0b00000000000000000000000000001011#32 = .convGray8 .lsbFirst false := by decide

theorem test_decode_convGray2 :
    decodeWord 0b00000000000000000000000000011101#32 = .convGray2 .lsbFirst true ∧
    decodeWord 0b00000000000000000000000000000101#32 = .convGray2 .msbFirst false := by decide

theorem test_decode_reservedMode :
    decodeWord 0b00000000000000000000000000001111#32 = .reservedMode .lsbFirst false ∧
    decodeWord 0b00000000000000000000000000010111#32 = .reservedMode .msbFirst true := by decide

theorem test_decode_ctrlSet :
    decodeWord 0b00000000000000000000000000001010#32 = .ctrlSet .gray8 .lsbFirst false ∧
    decodeWord 0b11111111111111111111111111111110#32 = .ctrlSet .reserved .lsbFirst true := by decide

theorem test_decode_table_word : decodeTableWord 32 0x15 = some (.convGray2 .msbFirst true) ∧
    decodeTableWord 8 0x05 = some (.convGray2 .msbFirst false) ∧ decodeTableWord 33 0x05 = none ∧
    decodeTableWord 3 0x0D = none := by decide

/-! ### The datapath units (95_test_vectors.md §2.1 to §2.4) -/

theorem test_black : ([(0, 0, 0), (255, 255, 255), (150, 150, 150), (149, 255, 255), (255, 149, 255), (255, 255, 149),
    (150, 255, 255), (149, 149, 149), (0, 255, 255), (200, 200, 149)].map fun p : Nat × Nat × Nat =>
      (black ⟨BitVec.ofNat 8 p.1, BitVec.ofNat 8 p.2.1, BitVec.ofNat 8 p.2.2⟩).toNat) =
    [1, 0, 0, 1, 1, 1, 0, 1, 1, 1] := by decide  -- THR-1 to THR-10

theorem test_gray8 : ([(0, 0, 0), (0, 0, 1), (0, 0, 2), (1, 1, 1), (100, 101, 102), (255, 255, 255), (255, 255, 254),
    (255, 255, 253), (64, 64, 65), (64, 65, 65), (192, 192, 193), (150, 150, 150), (10, 10, 10), (127, 128, 128),
    (128, 128, 129), (255, 0, 0), (0, 0, 255)].map fun p : Nat × Nat × Nat =>
      (gray8 ⟨BitVec.ofNat 8 p.1, BitVec.ofNat 8 p.2.1, BitVec.ofNat 8 p.2.2⟩).toNat) =
    [0x00, 0x00, 0x01, 0x01, 0x65, 0xFF, 0xFF, 0xFE, 0x40, 0x41, 0xC0, 0x96, 0x0A, 0x80, 0x80, 0x55, 0x55] := by
  decide  -- GRAY-1 to GRAY-17

theorem test_quant2 : ([0, 64, 65, 128, 129, 192, 193, 255].map fun y => (quant2 (BitVec.ofNat 8 y)).toNat) =
    [0, 0, 1, 1, 2, 2, 3, 3] := by decide  -- Q-1 to Q-8

theorem test_pack_bits : ([[1, 0, 1, 0, 1, 0, 1, 0], [1, 0, 0, 0, 0, 0, 0, 0], [0, 0, 0, 0, 0, 0, 0, 1],
    [1, 1, 1, 1, 1, 1, 1, 1], [0, 0, 1, 1, 1, 1, 0, 0], [1, 1, 0, 0, 0, 0, 0, 0]].map fun v : List Byte =>
      (pack 1 .msbFirst v, pack 1 .lsbFirst v)) =
    [(0xAA#8, 0x55#8), (0x80#8, 0x01#8), (0x01#8, 0x80#8), (0xFF#8, 0xFF#8), (0x3C#8, 0x3C#8), (0xC0#8, 0x03#8)] := by
  decide  -- PACK-1 to PACK-6

theorem test_pack_levels : ([[3, 2, 1, 0], [0, 1, 2, 3], [1, 0, 0, 0], [2, 0, 0, 2], [2, 0, 0, 0],
    [2, 1, 0, 3]].map fun v : List Byte => (pack 2 .msbFirst v, pack 2 .lsbFirst v)) =
    [(0xE4#8, 0x1B#8), (0x1B#8, 0xE4#8), (0x40#8, 0x01#8), (0x82#8, 0x82#8), (0x80#8, 0x02#8), (0x93#8, 0xC6#8)] ∧
    pack 8 .msbFirst [0x5A#8] = 0x5A#8 ∧ pack 8 .lsbFirst [0x5A#8] = 0x5A#8 := by decide  -- PACK-7 to PACK-13

/-! ### Output bytes of a group (§2.5 to §2.7) -/

theorem test_mono_bytes : groupByteMono rasterP1 0x1000 0 .msbFirst = 0xAA#8 ∧
    groupByteMono rasterP1 0x1000 0 .lsbFirst = 0x55#8 ∧ groupByteMono rasterP2 0x1000 0 .msbFirst = 0x3C#8 := by
  decide +kernel  -- MONO-1, MONO-2, program P2 step 4

theorem test_gray8_bytes : ((List.range 8).map fun g => groupByteGray8 rasterP2 0x1000 g) =
    [0xFF#8, 0x96#8, 0x64#8, 0x0A#8, 0x40#8, 0x41#8, 0xC0#8, 0xC1#8] := by decide +kernel  -- GR8-3

theorem test_gray2_bytes : ((List.range 2).map fun g => groupByteGray2 rasterP2 0x1000 g .msbFirst) =
    [0xE4#8, 0x1B#8] ∧ ((List.range 2).map fun g => groupByteGray2 rasterP2 0x1000 g .lsbFirst) = [0x1B#8, 0xE4#8] := by
  decide +kernel  -- GR2-3, GR2-4

/-! ### Acceptance (§2.8) -/

/-- ERRCODE (0 when accepted) and OUTLEN of a START. -/
def verdict (r : Except CmdError Nat) : Nat × Nat :=
  match r with
  | .ok n => (0, n)
  | .error e => (e.code.toNat, 0)

theorem test_validate : ([(.reserved, 9, 0x1000, 0x2000), (.mono, 9, 0x1000, 0x2000), (.mono, 8, 0x1000, 0x1010),
    (.mono, 8, 0xFFFFFFF0, 0x2000), (.mono, 8, 0xFFFFFFE0, 0x2000), (.gray2, 0, 0x1000, 0x2000),
    (.gray8, 8, 0x1000, 0x1020), (.gray8, 8, 0x1000, 0x101F), (.gray2, 4, 0x1000, 0x2000)].map
      fun q : Mode × Nat × Nat × Nat => verdict (validate q.1 q.2.1 q.2.2.1 q.2.2.2)) =
    [(1, 0), (2, 0), (4, 0), (3, 0), (0, 1), (0, 0), (0, 8), (4, 0), (2, 0)] := by decide +kernel  -- CMD-1 to CMD-9

theorem test_validate_edges : ([(.gray8, 8, 0x1000, 0xFFFFFFF8), (.gray8, 8, 0x1000, 0xFFFFFFF9),
    (.mono, 2 ^ 35, 0, 0), (.mono, 2 ^ 30, 0, 0x1000), (.mono, 0, 0x1000, 0x1000),
    (.reserved, 0, 0xFFFFFFFF, 0xFFFFFFFF), (.mono, 2 ^ 32, 0, 0), (.mono, 8, 0x1000, 0x0FFF)].map
      fun q : Mode × Nat × Nat × Nat => verdict (validate q.1 q.2.1 q.2.2.1 q.2.2.2)) =
    [(0, 8), (3, 0), (3, 0), (4, 0), (0, 0), (1, 0), (3, 0), (0, 1)] := by decide +kernel  -- CMD-10 to CMD-17

/-! ### One step of each instruction, and of the machine -/

theorem test_step_convMono : nextHas (step ((ready8).withFetchWord 32 0x11)) (fun t =>
    decide (t.status.toWord = 0x01#32 ∧ t.outlen = 1#32 ∧ t.ctrl.toWord = 0x10#32 ∧ t.mem = [])) = true := by
  decide +kernel  -- 40_command.md R100; the WIDTH x HEIGHT of CMD-5

theorem test_step_convMono_dim : nextHas (step ((ready 0x1000#32 0x2000#32 9#32 1#32).withFetchWord 32 0x01)) (fun t =>
    decide (t.status.toWord = 0x24#32 ∧ t.outlen = 0#32)) = true := by decide +kernel  -- MONO-14, CMD-2

theorem test_step_convGray8 : nextHas (step ((ready8).withFetchWord 32 0x0B)) (fun t =>
    decide (t.status.toWord = 0x01#32 ∧ t.outlen = 8#32 ∧ t.ctrl.toWord = 0x0A#32)) = true := by
  decide +kernel  -- GR8-4: BIT_ORDER is stored

theorem test_step_convGray2 : nextHas (step ((errState).withFetchWord 32 0x05)) (fun t =>
    decide (t.status.toWord = 0x01#32 ∧ t.outlen = 2#32)) = true := by decide +kernel  -- REG-8

theorem test_step_reservedMode : nextHas (step ((ready8).withFetchWord 32 0x07)) (fun t =>
    decide (t.status.toWord = 0x14#32 ∧ t.ctrl.toWord = 0x06#32 ∧ t.outlen = 0#32)) = true := by
  decide +kernel  -- program P3, e1

theorem test_step_ctrlSet : nextHas (step (State.reset.withFetchWord 32 0xFFFFFFFE)) (fun t =>
    decide (t.ctrl.toWord = 0x1E#32 ∧ t.status.toWord = 0#32)) = true := by decide +kernel  -- REG-2

theorem test_step_ctrlSet_busy : nextHas (step ((busyAt .gray8 0).withFetchWord 32 0x17)) (fun t =>
    decide (t.ctrl.toWord = 0x12#32 ∧ t.status.toWord = 0x01#32)) = true := by decide +kernel  -- REG-10

theorem test_status_write : nextHas (hostStep (.regWrite 0x04 4 0x2#32) errState) (fun t =>
      decide (t.status.toWord = 0x24#32)) = true ∧
    nextHas (hostStep (.regWrite 0x04 4 0x4#32) errState) (fun t => decide (t.status.toWord = 0#32)) = true ∧
    nextHas (hostStep (.regWrite 0x04 4 0x1#32) doneState) (fun t => decide (t.status.toWord = 0x02#32)) = true := by
  decide +kernel  -- REG-5, REG-6, REG-7

theorem test_irq : nextHas (hostStep (.regWrite 0x00 4 0x10#32) doneState) (fun t =>
      t.irq && nextHas (hostStep (.regWrite 0x04 4 0x2#32) t) fun u => !u.irq) = true := by
  decide +kernel  -- REG-11, REG-12

theorem test_group_step : nextHas (engineTurn { busyAt .mono 0 with mem := rasterP1 }) (fun t =>
    decide (t.mem.read 0x2000 = 0xAA#8 ∧ t.engine.g = 1 ∧ t.status.toWord = 0x01#32)) = true := by
  decide +kernel  -- MONO-1

theorem test_completion : nextHas (engineTurn (busyAt .gray8 8)) (fun t =>
    decide (t.status.toWord = 0x02#32 ∧ t.outlen = 8#32)) = true := by decide +kernel

theorem test_bus_error : nextHas (engineTurn (busyOn .mono 0 (faultAt .wr 0x2000))) (fun t =>
      decide (t.status.toWord = 0x54#32 ∧ t.outlen = 1#32)) = true ∧
    nextHas (engineTurn (busyOn .gray8 1 (faultAt .rd 0x1004))) (fun t => decide (t.status.toWord = 0x54#32)) = true := by
  decide +kernel  -- BUS-1, BUS-3

theorem test_hang : nextHas (engineTurn (busyOn .mono 0 (hangAt .wr 0x2000))) (fun t =>
    decide (t.status.toWord = 0x01#32) && nextHas (engineTurn t) fun u => decide (u = t)) = true := by
  decide +kernel  -- BUS-6

theorem test_idle_store : nextHas (hostStep (.sb 0x2003#32 0x5A#8) { doneState with unsynced := [⟨0x2000, 8, []⟩] })
    (fun t => decide (t.mem.read 0x2003 = 0x5A#8) &&
      nextHas (step (t.withFetchWord 32 0x03)) fun u => decide (u.mem.read 0x2003 = 0x5A#8)) = true := by
  decide +kernel  -- 20_memory.md R59

theorem test_reset_input : nextHas (hostStep .reset doneState) (fun t =>
    decide (∀ r ∈ [Reg.ctrl, .status, .srcAddr, .dstAddr, .width, .height, .outlen, .rsvd], t.readReg r = 0#32)) = true := by
  decide +kernel  -- RST-1

/-! ### Facts the witnesses share -/

/-- An idle state whose memory, STATUS and unobserved commands are plain meets the invariant. -/
theorem idle_inv {s : State} (hm : s.mem.wf = true) (hu : s.unsynced = []) (hb : s.status.busy = false)
    (hs : s.status.Legal) : s.Inv :=
  ⟨hm, by rw [hu]; simp, hs, fun h => by rw [hb] at h; cases h⟩

theorem ready_inv (src dst w h : Word) : (ready src dst w h).Inv :=
  idle_inv rfl rfl rfl (by simp [Status.Legal, ready, State.reset])

theorem doneState_inv : doneState.Inv := idle_inv rfl rfl rfl (by unfold Status.Legal; decide)

theorem errState_inv : errState.Inv := idle_inv rfl rfl rfl (by unfold Status.Legal; decide)

theorem busyOn_inv (c : Conv) (g : Nat) (p : Platform) (hg : g ≤ outputLength c 8)
    (hp : (busyOn c g p).touchesSideEffects (outputLength c 8) = false) : (busyOn c g p).Inv :=
  ⟨rfl, by simp [busyOn, Memory.wf, Memory.wfFrom], by unfold Status.Legal; simp [busyOn],
    fun _ => ⟨rfl, rfl,
      by change validate c.mode 8 0x1000 0x2000 = .ok (outputLength c 8); cases c <;> decide +kernel,
      by cases c <;> rfl, hg, hp, rfl⟩⟩

theorem busyAt_inv (c : Conv) (g : Nat) (hg : g ≤ outputLength c 8) : (busyAt c g).Inv :=
  busyOn_inv c g _ hg (by cases c <;> rfl)

/-- The hypotheses of `Fits`, from comparisons of the ends of the ranges. -/
theorem fits_of_ends (s : State) (c : Conv) (hd : s.pixelCount % 8 = 0)
    (hs : s.srcAddr.toNat + 4 * s.pixelCount ≤ 2 ^ 32)
    (ht : s.dstAddr.toNat + s.pixelCount * c.bpp / 8 ≤ 2 ^ 32)
    (ha : s.dstAddr.toNat + s.pixelCount * c.bpp / 8 ≤ s.srcAddr.toNat ∨
      s.srcAddr.toNat + 4 * s.pixelCount ≤ s.dstAddr.toNat)
    (ho : ∀ r ∈ s.platform.sideEffects,
      (r.lo + r.len ≤ s.srcAddr.toNat ∨ s.srcAddr.toNat + 4 * s.pixelCount ≤ r.lo) ∧
      (r.lo + r.len ≤ s.dstAddr.toNat ∨ s.dstAddr.toNat + s.pixelCount * c.bpp / 8 ≤ r.lo)) : s.Fits c :=
  ⟨hd, hs, ht, fun a => by omega, fun r hr a h => by
    have := ho r hr
    simp only [Region.has, Bool.and_eq_true, decide_eq_true_eq] at h
    omega⟩

theorem ready8_fits (c : Conv) : ready8.Fits c := by
  cases c <;>
    exact fits_of_ends _ _ (by decide +kernel) (by decide +kernel) (by decide +kernel) (by decide +kernel)
      (by decide +kernel)

/-- A platform without faults and hangs answers every access. -/
theorem answered_of_ordinary (s : State) (n : Nat) (hf : s.platform.faults = []) (hh : s.platform.hangs = []) :
    s.AnsweredFor n := by
  simp [State.AnsweredFor, Platform.busFault, Platform.busHang, hf, hh]

/-- The ordinary memory of the vectors: the window is the only region with side effects. -/
theorem ordinary_at {s : State} (hp : s.platform = Platform.ordinary) {a : Nat} (ha : a < 0xF0000000) :
    ∀ r ∈ s.platform.sideEffects, r.has a = false := by
  intro r hr
  rw [hp] at hr
  simp only [Platform.sideEffects, Platform.ordinary, List.mem_singleton] at hr
  subst hr
  have : (0xF0000000#32 : Word).toNat = 0xF0000000 := rfl
  simp only [Region.has, Platform.window, this, Bool.and_eq_false_iff, decide_eq_false_iff_not]
  omega

/-! ### Witnesses: encoding and CTRL writes -/

theorem witness_DecodeAndEncodeAgreeOnEveryWord : Instr.wf (.ctrlSet .reserved .lsbFirst true) = true := rfl

theorem witness_DecodeFollowsTheOpcodeMap :
    (0x1#32 : Word).extractLsb' 0 3 = 0b001#3 ∧ (0x3#32 : Word).extractLsb' 0 3 = 0b011#3 ∧
    (0x5#32 : Word).extractLsb' 0 3 = 0b101#3 ∧ (0xFFFFFFFF#32 : Word).extractLsb' 0 3 = 0b111#3 ∧
    (0x0#32 : Word).getLsbD 0 = false ∧ (busyAt .mono 0).status.busy = true := by decide +kernel

theorem witness_StepRunsTheDecodedCtrlWrite :
    (withEvent (.host (.regWrite 0x00 4 0x01#32)) ready8).schedule = .host (.regWrite 0x00 4 0x01#32) :: [] ∧
    decodeTableWord 32 0x01 = some (.convMono .msbFirst false) := by decide +kernel

theorem witness_CtrlWriteAndReadFollowTheRule :
    (ready8.status.busy = false ∧ (0xFFFFFFFE#32 : Word).getLsbD 0 = false) ∧
    (ready8.status.busy = false ∧ (0x01#32 : Word).getLsbD 0 = true) ∧ (busyAt .gray2 2).status.busy = true := by
  decide +kernel

theorem witness_CtrlSetStoresItsFieldsAndNothingElse : State.reset.status.busy = false := rfl

theorem witness_ReservedModeIsRejectedWithErrMode : doneState.status.busy = false := rfl

theorem witness_EveryInstructionWhileBusyWritesIeAlone : (busyAt .gray8 0).status.busy = true := rfl

/-- The source ends at `2^32` (CMD-5), the destination ends at `2^32` (CMD-10), the ranges are adjacent (CMD-7), and
`N = 0`. -/
theorem witness_ConversionStartCompletes :
    (ready 0xFFFFFFE0#32 0x2000#32 8#32 1#32).Fits .mono ∧ (ready 0x1000#32 0xFFFFFFF8#32 8#32 1#32).Fits .gray8 ∧
    (ready 0x1000#32 0x1020#32 4#32 2#32).Fits .gray2 ∧ (ready 0x1000#32 0x1000#32 0#32 5#32).Fits .gray2 := by
  refine ⟨?_, ?_, ?_, ?_⟩ <;>
    exact fits_of_ends _ _ (by decide +kernel) (by decide +kernel) (by decide +kernel) (by decide +kernel)
      (by decide +kernel)

/-- Sizes 9 and 8, a range one byte too long, overlap in the last and in the first byte, and an exact fit. -/
theorem witness_ValidateReportsTheFirstFailingCheck :
    9 % 8 ≠ 0 ∧ (8 % 8 = 0 ∧ 2 ^ 32 < 0xFFFFFFE1 + 4 * 8) ∧ (2 ^ 32 < 0xFFFFFFF9 + 8 * Conv.gray8.bpp / 8) ∧
    (0x1000 < 0x101F + 8 * Conv.gray8.bpp / 8 ∧ 0x101F < 0x1000 + 4 * 8) ∧
    (0x1000 < 0x0FF9 + 8 * Conv.gray8.bpp / 8 ∧ 0x0FF9 < 0x1000 + 4 * 8) ∧
    (0x1000 + 4 * 8 ≤ 2 ^ 32 ∧ ¬(0 < 8 ∧ 0x1000 < 0x1020 + 8 * Conv.gray8.bpp / 8 ∧ 0x1020 < 0x1000 + 4 * 8)) ∧
    validate .gray8 8 0x1000 0x1020 = .ok 8 := by
  refine ⟨?_, ?_, ?_, ?_, ?_, ?_, rfl⟩ <;> decide

/-- What `validate` says of the registers of a state, for an instruction. -/
def checked (i : Instr) (s : State) : Except CmdError Nat :=
  validate i.mode s.pixelCount s.srcAddr.toNat s.dstAddr.toNat

/-- Each of the four errors, on an idle state and an instruction that starts a command. -/
theorem witness_RejectedStartHasExactlyTheseEffects :
    checked (.reservedMode .lsbFirst true) (ready 0x1000#32 0x2000#32 9#32 1#32) = .error .mode ∧
    checked (.convMono .msbFirst false) (ready 0x1000#32 0x2000#32 9#32 1#32) = .error .dim ∧
    checked (.convMono .msbFirst true) (ready 0xFFFFFFE1#32 0x2000#32 8#32 1#32) = .error .range ∧
    checked (.convGray8 .msbFirst false) (ready 0x1000#32 0x101F#32 8#32 1#32) = .error .overlap ∧
    (ready 0x1000#32 0x101F#32 8#32 1#32).status.busy = false ∧ Instr.start (.convGray8 .msbFirst false) = true :=
  ⟨rfl, rfl, rfl, rfl, rfl, rfl⟩

/-- The source begins in the last byte of the register window; the destination ends in its first byte. -/
theorem witness_StartOnSideEffectMemoryIsRefused :
    (checked (.convMono .msbFirst false) (ready 0xF000001F#32 0x2000#32 8#32 1#32) = .ok 1 ∧
      ∃ r ∈ (ready 0xF000001F#32 0x2000#32 8#32 1#32).platform.sideEffects, r.has 0xF000001F = true) ∧
    (checked (.convGray8 .msbFirst false) (ready 0x1000#32 0xEFFFFFF9#32 8#32 1#32) = .ok 8 ∧
      ∃ r ∈ (ready 0x1000#32 0xEFFFFFF9#32 8#32 1#32).platform.sideEffects, r.has 0xF0000000 = true ∧
        0xF0000000 < 0xEFFFFFF9 + 8) :=
  ⟨⟨rfl, _, List.mem_cons_self, by decide +kernel⟩, rfl, _, List.mem_cons_self, by decide +kernel, by decide⟩

theorem witness_OutputLengthOfEachMode : 0 % 8 = 0 ∧ 8 % 8 = 0 := by decide

theorem witness_PixelCountIsExactAndAllThatMatters :
    (1#32 : Word).toNat * (8#32 : Word).toNat = ready8.pixelCount ∧
    nextHas (exec (.convMono .msbFirst false) ready8) (fun _ => true) = true ∧
    nextHas (engineTurn (busyAt .mono 0)) (fun _ => true) = true := by decide +kernel

theorem witness_EmptyCommandCompletesWithoutAccess :
    (ready 0xFFFFFFFF#32 0#32 0#32 5#32).width = 0#32 ∧ (ready 0xFFFFFFFF#32 0#32 5#32 0#32).height = 0#32 ∧
    (ready 0xFFFFFFFF#32 0#32 0#32 5#32).status.busy = false := by decide +kernel

/-! ### Witnesses: the units -/

theorem witness_GrayValueIsTheNearestIntegerToTheMean :
    2 * 764 ≤ 6 * (gray8 ⟨255#8, 255#8, 254#8⟩).toNat + 3 ∧ 6 * (gray8 ⟨255#8, 255#8, 254#8⟩).toNat ≤ 2 * 764 + 3 := by
  decide

theorem witness_QuantLevelsCoverTheFourRanges :
    (64#8 : Byte).toNat ≤ 64 ∧ (65 ≤ (65#8 : Byte).toNat ∧ (128#8 : Byte).toNat ≤ 128) ∧
    (129 ≤ (129#8 : Byte).toNat ∧ (192#8 : Byte).toNat ≤ 192) ∧ 193 ≤ (193#8 : Byte).toNat := by decide

theorem witness_PackPlacesEveryValue :
    (([1, 0, 1, 1, 0, 0, 0, 1] : List Byte).length = 8 / 1 ∧ ∀ v ∈ ([1, 0, 1, 1, 0, 0, 0, 1] : List Byte), v.toNat < 2 ^ 1) ∧
    (([3, 2, 1, 0] : List Byte).length = 8 / 2 ∧ ∀ v ∈ ([3, 2, 1, 0] : List Byte), v.toNat < 2 ^ 2) ∧
    (([255] : List Byte).length = 8 / 8 ∧ ∀ v ∈ ([255] : List Byte), v.toNat < 2 ^ 8) := by decide

theorem witness_MonoByteHoldsOneBitPerPixel : 7 < 8 ∧ true = decide ((Memory.read [] 0x101C).toNat < 150) := by
  decide +kernel

theorem witness_Gray2ByteHoldsOneLevelPerPixel :
    3 < 4 ∧ 0 = ((Memory.read [] 0x100C).toNat + (Memory.read [] 0x100D).toNat + (Memory.read [] 0x100E).toNat + 1) / 3 := by
  decide +kernel

theorem witness_UniformRastersGiveUniformBytes :
    (∀ i, i < 8 → readPixel (raster 0x1000 (List.replicate 8 (255, 255, 255))) 0x1000 i =
      { r := 255#8, g := 255#8, b := 255#8 }) ∧
    (∀ i, i < 8 → readPixel [] 0x1000 i = { r := 0#8, g := 0#8, b := 0#8 }) := by decide +kernel

/-! ### Witnesses: the engine -/

theorem witness_EngineStepsExactlyWhileBusy :
    ready8.schedule = [] ∧ ready8.status.busy = false ∧ ({ busyAt .mono 0 with hung := true } : State).hung = true ∧
    (busyAt .mono 1).Inv ∧ (busyAt .mono 1).status.busy = true ∧ (busyAt .mono 1).hung = false :=
  ⟨rfl, rfl, rfl, busyAt_inv _ _ (by decide), rfl, rfl⟩

/-- The first and the last group of a command. -/
theorem witness_GroupStepStoresOneByte : ∀ g, g = 0 ∨ g = 7 → (busyAt .gray8 g).Inv ∧
    (busyAt .gray8 g).engine.g < (busyAt .gray8 g).engine.len ∧ (busyAt .gray8 g).engine.mode = Conv.gray8.mode ∧
    (busyAt .gray8 g).AnsweredFor (busyAt .gray8 g).engine.len := by
  intro g h
  have hg : g < outputLength .gray8 8 := by rcases h with rfl | rfl <;> decide
  exact ⟨busyAt_inv _ _ hg.le, hg, rfl, answered_of_ordinary _ _ rfl rfl⟩

/-- An error response to a read of the last pixel's byte B, and one to the write. -/
theorem witness_BusErrorEndsTheCommand :
    ((busyOn .mono 0 (faultAt .rd 0x101E)).Inv ∧ (busyOn .mono 0 (faultAt .rd 0x101E)).readAnswer .mono = .busErr ∧
      ∀ a k, (faultAt .rd 0x101E).busHang a k = false) ∧
    ((busyOn .gray2 1 (faultAt .wr 0x2001)).Inv ∧ (busyOn .gray2 1 (faultAt .wr 0x2001)).readAnswer .gray2 = .ok ∧
      (busyOn .gray2 1 (faultAt .wr 0x2001)).writeAnswer = .busErr) :=
  ⟨⟨busyOn_inv _ _ _ (by decide) (by decide +kernel), by decide +kernel, fun _ _ => rfl⟩,
    busyOn_inv _ _ _ (by decide) (by decide +kernel), by decide +kernel, by decide +kernel⟩

theorem witness_AlphaFaultMayOrMayNotEndTheCommand :
    (busyOn .gray8 0 (faultAt .rd 0x1003)).Inv ∧ (∀ a k, (faultAt .rd 0x1003).busHang a k = false) ∧
    (∀ a, (busyOn .gray8 0 (faultAt .rd 0x1003)).IsDest a → (faultAt .rd 0x1003).busFault a .wr = false) ∧
    (∀ i ch, i < 8 → ch < 3 → (faultAt .rd 0x1003).busFault (0x1000 + 4 * i + ch) .rd = false) := by
  refine ⟨busyOn_inv _ _ _ (by decide) (by decide +kernel), fun _ _ => rfl, fun a _ => rfl, fun i ch _ hc => ?_⟩
  simp only [Platform.busFault, faultAt, List.any_cons, List.any_nil, Bool.or_false, BusRegion.has,
    Bool.and_eq_false_iff, decide_eq_false_iff_not]
  omega

/-- A read of the first pixel's byte R, of the last pixel's byte B, and the write of the last output byte. -/
theorem witness_HangEndsOnlyAtReset :
    ((busyOn .gray2 0 (hangAt .rd 0x1000)).Inv ∧ (busyOn .gray2 0 (hangAt .rd 0x1000)).readAnswer .gray2 = .hang) ∧
    ((busyOn .mono 0 (hangAt .rd 0x101E)).Inv ∧ (hangAt .rd 0x101E).busHang (0x1000 + 4 * (8 * 0 + 7) + 2) .rd = true ∧
      (∀ a k, (hangAt .rd 0x101E).busFault a k = false)) ∧
    ((busyOn .gray8 7 (hangAt .wr 0x2007)).Inv ∧ (busyOn .gray8 7 (hangAt .wr 0x2007)).readAnswer .gray8 = .ok ∧
      (busyOn .gray8 7 (hangAt .wr 0x2007)).writeAnswer = .hang ∧ (hangAt .wr 0x2007).busHang 0x2007 .wr = true) ∧
    (({ busyAt .mono 0 with hung := true } : State).Inv ∧
      nextHas (step { busyAt .mono 0 with hung := true }) (fun _ => true) = true) :=
  ⟨⟨busyOn_inv _ _ _ (by decide) (by decide +kernel), by decide +kernel⟩,
    ⟨busyOn_inv _ _ _ (by decide) (by decide +kernel), by decide +kernel, fun _ _ => rfl⟩,
    ⟨busyOn_inv _ _ _ (by decide) (by decide +kernel), by decide +kernel, by decide +kernel, by decide +kernel⟩,
    ⟨(busyAt_inv .mono 0 (by decide)).1, (busyAt_inv .mono 0 (by decide)).2, (busyAt_inv .mono 0 (by decide)).3,
      fun _ => ⟨rfl, rfl, by decide +kernel, by decide +kernel, by decide, by decide +kernel, rfl⟩⟩, by decide +kernel⟩

/-- The finished command on an all-black raster: its one output byte is 0xFF. -/
def finished : State := { busyAt .mono 1 with mem := [(0x2000, 0xFF#8)] }

theorem finished_inv : finished.Inv :=
  ⟨by decide +kernel, (busyAt_inv .mono 1 (by decide)).2, (busyAt_inv .mono 1 (by decide)).3,
    fun _ => ⟨rfl, rfl, by decide +kernel, by decide +kernel, by decide, by decide +kernel, rfl⟩⟩

theorem finished_progress : finished.Progress := by
  intro _ _ c t hc ht
  cases hc
  cases ht
  constructor
  · intro a ha
    rw [Region.has, Bool.and_eq_true, decide_eq_true_eq, decide_eq_true_eq] at ha
    have h1 : finished.srcRange.lo + finished.srcRange.len = 0x1020 := by decide +kernel
    have h2 : a < 0x2000 := by omega
    simp [finished, busyAt, busyOn, Memory.read, h2]
  · intro i hi
    have : i = 0 := by simp only [finished, busyAt, busyOn] at hi; omega
    subst this
    decide +kernel

theorem witness_CompletionStepReportsDone :
    (finished.Inv ∧ finished.Progress ∧ finished.status.busy = true ∧ finished.hung = false ∧
      finished.disturbed = false ∧ finished.engine.g = finished.engine.len ∧
      finished.engine.mode = Conv.mono.mode ∧ finished.unsynced.head? = some ⟨0x2000, 1, []⟩ ∧
      0 < finished.engine.len) ∧
    (busyAt .gray8 8).Inv ∧ (busyAt .gray8 8).engine.g = (busyAt .gray8 8).engine.len :=
  ⟨⟨finished_inv, finished_progress, rfl, rfl, rfl, rfl, rfl, rfl, by decide⟩, busyAt_inv _ _ (by decide), rfl⟩

theorem witness_EngineChangesOnlyTheDestination :
    (busyAt .mono 0).Inv ∧ nextHas (engineTurn (busyAt .mono 0)) (fun t => decide (t.mem ≠ (busyAt .mono 0).mem)) = true :=
  ⟨busyAt_inv _ _ (by decide), by decide +kernel⟩

/-! ### Witnesses: invariants -/

/-- A step of the engine, a step of the host, and one that raises DONE. -/
theorem witness_StepKeepsTheInvariant :
    ((busyAt .mono 0).Inv ∧ nextHas (step (busyAt .mono 0)) (fun _ => true) = true) ∧
    (ready8.Inv ∧ nextHas (step (ready8.withFetchWord 32 0x05)) (fun t => t.status.busy) = true) ∧
    ((busyAt .mono 1).Inv ∧ nextHas (step (busyAt .mono 1)) (fun t => t.status.done) = true) :=
  ⟨⟨busyAt_inv _ _ (by decide), by decide +kernel⟩, ⟨ready_inv _ _ _ _, by decide +kernel⟩,
    busyAt_inv _ _ (by decide), by decide +kernel⟩

theorem witness_StepKeepsTheProgress :
    finished.Inv ∧ finished.Progress ∧ nextHas (step finished) (fun _ => true) = true :=
  ⟨finished_inv, finished_progress, by decide +kernel⟩

/-- Each antecedent of the four combinations holds after some step. -/
theorem witness_StatusCombinationsStayLegal :
    nextHas (step (ready8.withFetchWord 32 0x05)) (fun t => t.status.busy) = true ∧
    nextHas (step (busyAt .mono 1)) (fun t => t.status.done) = true ∧
    nextHas (step (busyAt .mono 0)) (fun t => !t.status.err) = true ∧
    nextHas (step (ready8.withFetchWord 32 0x07)) (fun t => t.status.err) = true := by decide +kernel

theorem witness_NoStepFaults : (busyAt .gray2 0).Inv := busyAt_inv _ _ (by decide)

/-- Every reason a step refuses, on an access of each kind. -/
theorem witness_OnlyMeaninglessHostAccessesRefuse :
    refusesWith (step (withEvent (.host (.regWrite 0x04 1 0#32)) ready8)) .notAlignedWordAccess = true ∧
    refusesWith (step (withEvent (.host (.regWrite 0x20 4 0#32)) ready8)) .outsideWindow = true ∧
    refusesWith (step ((ready 0xF0000000#32 0x2000#32 8#32 1#32).withFetchWord 32 0x01)) .sideEffectMemory = true ∧
    refusesWith (step (withEvent (.host (.regRead 0x02 4)) ready8)) .notAlignedWordAccess = true ∧
    refusesWith (step (withEvent (.host (.poll 0x24 0#32 0#32)) ready8)) .outsideWindow = true ∧
    refusesWith (step (withEvent (.host (.sb 0xF0000000#32 0#8)) ready8)) .notAlignedWordAccess = true ∧
    refusesWith (step (withEvent (.host (.lb 0x3000#32))
      { ready8 with platform := { Platform.ordinary with devices := [⟨0x3000, 4⟩] } })) .hostDeviceAccess = true ∧
    refusesWith (step (withEvent (.host (.secondHostWrite 0x14 1#32)) ready8)) .interleavedHosts = true := by
  decide +kernel

theorem witness_RunningArgumentsNeverChange : (busyAt .gray8 0).Inv ∧ (busyAt .gray8 0).status.busy = true ∧
    nextHas (step (busyAt .gray8 0)) (fun t => t.status.busy) = true :=
  ⟨busyAt_inv _ _ (by decide), rfl, by decide +kernel⟩

theorem witness_DoneAndErrRiseOnlyAtACommandsEnd :
    ((busyAt .mono 1).Inv ∧ (busyAt .mono 1).status.done = false ∧
      nextHas (step (busyAt .mono 1)) (fun t => t.status.done) = true) ∧
    (nextHas (step (busyOn .mono 0 (faultAt .wr 0x2000))) (fun t => t.status.err) = true) ∧
    (ready8.Inv ∧ nextHas (step (ready8.withFetchWord 32 0x07)) (fun t => t.status.err) = true) :=
  ⟨⟨busyAt_inv _ _ (by decide), rfl, by decide +kernel⟩, by decide +kernel, ready_inv _ _ _ _, by decide +kernel⟩

/-! ### Witnesses: whole commands -/

theorem witness_CommandTakesLengthPlusOneSteps : (busyAt .gray8 0).Inv ∧ (busyAt .gray8 0).status.busy = true ∧
    (busyAt .gray8 0).hung = false ∧ (busyAt .gray8 0).disturbed = false ∧ (busyAt .gray8 0).engine.g = 0 ∧
    (busyAt .gray8 0).engine.mode = Conv.gray8.mode ∧ (busyAt .gray8 0).schedule = [] ∧
    (busyAt .gray8 0).AnsweredFor (busyAt .gray8 0).engine.len :=
  ⟨busyAt_inv _ _ (by decide), rfl, rfl, rfl, rfl, rfl, rfl, answered_of_ordinary _ _ rfl rfl⟩

theorem witness_ConvMonoWritesOneBitPerPixel : ready8.Inv ∧ ready8.status.busy = false ∧ ready8.schedule = [] ∧
    ready8.Fits .mono ∧ ready8.AnsweredFor (ready8.pixelCount / 8) ∧ 7 < ready8.pixelCount :=
  ⟨ready_inv _ _ _ _, rfl, rfl, ready8_fits _, answered_of_ordinary _ _ rfl rfl, by decide +kernel⟩

theorem witness_ConvGray8WritesOneMeanPerPixel : ready8.Inv ∧ ready8.status.busy = false ∧ ready8.schedule = [] ∧
    ready8.Fits .gray8 ∧ ready8.AnsweredFor ready8.pixelCount ∧ 7 < ready8.pixelCount :=
  ⟨ready_inv _ _ _ _, rfl, rfl, ready8_fits _, answered_of_ordinary _ _ rfl rfl, by decide +kernel⟩

theorem witness_ConvGray2WritesOneLevelPerPixel : ready8.Inv ∧ ready8.status.busy = false ∧ ready8.schedule = [] ∧
    ready8.Fits .gray2 ∧ ready8.AnsweredFor (ready8.pixelCount / 4) ∧ 7 < ready8.pixelCount :=
  ⟨ready_inv _ _ _ _, rfl, rfl, ready8_fits _, answered_of_ordinary _ _ rfl rfl, by decide +kernel⟩

/-- The same black raster at another address, in another shape, with one alpha byte set and its output elsewhere. -/
def elsewhere : State :=
  { ready 0x5001#32 0x7003#32 2#32 4#32 with mem := [(0x5004, 0x7F#8), (0x7003, 0x55#8)] }

theorem elsewhere_fits (c : Conv) : elsewhere.Fits c := by
  cases c <;>
    exact fits_of_ends _ _ (by decide +kernel) (by decide +kernel) (by decide +kernel) (by decide +kernel)
      (by decide +kernel)

theorem witness_OutputDependsOnColoursModeAndOrderAlone :
    (ready8.Inv ∧ elsewhere.Inv ∧ ready8.Fits .mono ∧ elsewhere.Fits .mono ∧ ready8.pixelCount = 8 ∧
      elsewhere.pixelCount = 8 ∧ ready8.AnsweredFor (8 * Conv.mono.bpp / 8) ∧
      elsewhere.AnsweredFor (8 * Conv.mono.bpp / 8)) ∧
    (∀ i, i < 8 → ready8.chR i = elsewhere.chR i ∧ ready8.chG i = elsewhere.chG i ∧ ready8.chB i = elsewhere.chB i) ∧
    nextHas (Host.Core.run Sys2Proof.core (8 * Conv.mono.bpp / 8 + 2)
      (ready8.withFetchWord 32 (encode (convInstr .mono .msbFirst false)).toNat)) (fun _ => true) = true ∧
    nextHas (Host.Core.run Sys2Proof.core (8 * Conv.mono.bpp / 8 + 2)
      (elsewhere.withFetchWord 32 (encode (convInstr .mono .msbFirst true)).toNat)) (fun _ => true) = true :=
  ⟨⟨ready_inv _ _ _ _, idle_inv (by decide +kernel) rfl rfl (by unfold Status.Legal; decide), ready8_fits _,
    elsewhere_fits _, by decide +kernel, by decide +kernel, answered_of_ordinary _ _ rfl rfl,
    answered_of_ordinary _ _ rfl rfl⟩, by decide +kernel, by decide +kernel, by decide +kernel⟩

/-! ### Witnesses: STATUS, the interrupt and the other registers -/

theorem witness_StatusWriteAndReadFollowTheRule : (busyAt .mono 0).Inv ∧ (busyAt .mono 0).status.busy = true :=
  ⟨busyAt_inv _ _ (by decide), rfl⟩

/-- Acknowledging with the one bit alone, and with ACK's 0x6. -/
theorem witness_InterruptIsALevelOfStatusAndEnable :
    (doneState.Inv ∧ doneState.status.done = true ∧
      (0x2#32 : Word).getLsbD 1 = true ∧ nextHas (hostStep (.regWrite 0x04 4 0x2#32) doneState) (fun _ => true) = true ∧
      (0x6#32 : Word).getLsbD 1 = true ∧ nextHas (hostStep (.regWrite 0x04 4 0x6#32) doneState) (fun _ => true) = true) ∧
    (errState.Inv ∧ errState.status.err = true ∧
      (0x4#32 : Word).getLsbD 2 = true ∧ nextHas (hostStep (.regWrite 0x04 4 0x4#32) errState) (fun _ => true) = true ∧
      (0x6#32 : Word).getLsbD 2 = true ∧ nextHas (hostStep (.regWrite 0x04 4 0x6#32) errState) (fun _ => true) = true) ∧
    nextHas (exec (.ctrlSet .mono .msbFirst false) doneState) (fun _ => true) = true ∧
    nextHas (exec (.convMono .msbFirst true) doneState) (fun t => t.status.busy) = true ∧
    nextHas (hostStep .reset doneState) (fun _ => true) = true :=
  ⟨⟨doneState_inv, rfl, by decide +kernel⟩, ⟨errState_inv, rfl, by decide +kernel⟩, by decide +kernel,
    by decide +kernel, by decide +kernel⟩

theorem witness_ArgumentRegistersAreStorageWhileIdle :
    ready8.status.busy = false ∧ (busyAt .gray8 0).status.busy = true := ⟨rfl, rfl⟩

theorem witness_ReservedAndReadOnlyIgnoreWrites :
    (0xFFFFFFFF#32 : Word) &&& 0x1F#32 = 0x1F#32 &&& 0x1F#32 ∧ (0xFFFFFFF9#32 : Word) &&& 0x6#32 = 0#32 &&& 0x6#32 ∧
    nextHas (hostStep (.regWrite 0x04 4 0xFFFFFFFB#32) errState) (fun _ => true) = true ∧
    (0xFFFFFFFB#32 : Word).getLsbD 2 = false := by decide +kernel

theorem witness_OtherWidthsAndAlignmentsAreRefused : 2 ≠ 4 ∧ 5 % 4 ≠ 0 := by decide

theorem witness_SecondHostMustSerialise :
    ready8.status.busy = false ∧ (busyAt .gray8 0).status.busy = true := ⟨rfl, rfl⟩

theorem witness_OutlenChangesOnlyAtAnIdleStart :
    (ready8.Inv ∧ ready8.status.busy = false ∧ Instr.start (.convGray8 .msbFirst false) = true ∧
      nextHas (exec (.convGray8 .msbFirst false) ready8) (fun t => t.status.busy) = true) ∧
    nextHas (exec (.reservedMode .msbFirst false) ready8) (fun t => t.status.err) = true ∧
    nextHas (step (ready8.withFetchWord 32 0x03)) (fun t => decide (t.outlen ≠ ready8.outlen)) = true ∧
    nextHas (step (withEvent (.host .reset) (busyAt .gray8 0)))
      (fun t => decide (t.outlen ≠ (busyAt .gray8 0).outlen)) = true :=
  ⟨⟨ready_inv _ _ _ _, rfl, rfl, by decide +kernel⟩, by decide +kernel, by decide +kernel, by decide +kernel⟩

/-! ### Witnesses: reset, loads and stores, host programs -/

theorem witness_ResetInputClearsTheBlock : doneState.Inv ∧ doneState.status.busy = false ∧ (busyAt .gray8 3).Inv :=
  ⟨doneState_inv, rfl, busyAt_inv _ _ (by decide)⟩

theorem witness_SettledLoadsAndStoresAreOrdinary :
    ready8.Inv ∧ ready8.unsynced = [] ∧ ∀ r ∈ ready8.platform.sideEffects, r.has (0x2000#32 : Word).toNat = false :=
  ⟨ready_inv _ _ _ _, rfl, ordinary_at rfl (by decide)⟩

/-- The first and the last byte of a destination range, while the command runs and after its end. -/
theorem witness_DestinationLoadBeforeTheEndIsSeenIsOldOrFinal : ∀ a : Word, a = 0x2000#32 ∨ a = 0x2007#32 →
    ((busyAt .gray8 3).unsynced = [⟨0x2000, 8, []⟩] ∧ 0x2000 ≤ a.toNat ∧ a.toNat < 0x2000 + 8 ∧
      (∀ r ∈ (busyAt .gray8 3).platform.sideEffects, r.has a.toNat = false) ∧ (busyAt .gray8 3).Inv ∧
      (busyAt .gray8 3).disturbed = false ∧ (busyAt .gray8 3).engine.mode = Conv.gray8.mode) ∧
    ({ doneState with unsynced := [⟨0x2000, 8, []⟩] } : State).status.busy = false := by
  rintro a (rfl | rfl) <;>
    exact ⟨⟨rfl, by decide, by decide, ordinary_at rfl (by decide), busyAt_inv _ _ (by decide), rfl, rfl⟩, rfl⟩

/-- The first and the last byte of the source range. -/
theorem witness_SourceLoadWhileBusyIsExact : ∀ a : Word, a = 0x1000#32 ∨ a = 0x101F#32 →
    (busyAt .gray8 3).status.busy = true ∧ (busyAt .gray8 3).srcAddr.toNat ≤ a.toNat ∧
    a.toNat < (busyAt .gray8 3).srcAddr.toNat + 4 * (busyAt .gray8 3).pixelCount ∧
    ∀ r ∈ (busyAt .gray8 3).platform.sideEffects, r.has a.toNat = false := by
  rintro a (rfl | rfl) <;> exact ⟨rfl, by decide +kernel, by decide +kernel, ordinary_at rfl (by decide)⟩

theorem witness_StoreIntoARunningRangeKeepsTheEnd :
    ((busyAt .gray8 3).Inv ∧ (busyAt .gray8 3).IsDest (0x2007#32 : Word).toNat ∧
      ∀ r ∈ (busyAt .gray8 3).platform.sideEffects, r.has (0x2007#32 : Word).toNat = false) ∧
    (({ finished with disturbed := true } : State).Inv ∧
      ({ finished with disturbed := true } : State).engine.g = ({ finished with disturbed := true } : State).engine.len) :=
  ⟨⟨busyAt_inv _ _ (by decide), by unfold State.IsDest; decide +kernel, ordinary_at rfl (by decide)⟩,
    ⟨finished_inv.1, finished_inv.2, finished_inv.3,
      fun _ => ⟨rfl, rfl, by decide +kernel, by decide +kernel, by decide, by decide +kernel, rfl⟩⟩, rfl⟩

/-- A completed command the host has not observed, and one a reset stopped. -/
theorem witness_IdleStoreTakesEffectAtOnce :
    (({ doneState with unsynced := [⟨0x2000, 8, []⟩] } : State).Inv ∧
      (∀ r ∈ doneState.platform.sideEffects, r.has (0x2007#32 : Word).toNat = false)) ∧
    ((resetBlock (busyAt .gray8 3)).status.busy = false ∧ (resetBlock (busyAt .gray8 3)).unsynced = [⟨0x2000, 8, []⟩] ∧
      (∀ r ∈ (resetBlock (busyAt .gray8 3)).platform.sideEffects, r.has (0x2000#32 : Word).toNat = false)) :=
  ⟨⟨⟨rfl, by simp [Memory.wf, Memory.wfFrom], doneState_inv.3, fun h => by cases h⟩, ordinary_at rfl (by decide)⟩,
    rfl, rfl, ordinary_at rfl (by decide)⟩

theorem witness_StatusReadOfIdleSynchronises : ({ doneState with unsynced := [⟨0x2000, 8, []⟩] } : State).status.busy = false ∧
    ∀ r ∈ ({ doneState with unsynced := [⟨0x2000, 8, []⟩] } : State).platform.sideEffects,
      r.has (0x2000#32 : Word).toNat = false :=
  ⟨rfl, ordinary_at rfl (by decide)⟩

theorem witness_PollRepeatsUntilTheValueMatches :
    ready8.status.toWord &&& 0x1#32 = 0x0#32 ∧ (busyAt .mono 0).status.toWord &&& 0x1#32 ≠ 0x0#32 := by decide +kernel

theorem witness_ConvPseudoInstructionProgramsTheBlock :
    ({ State.reset with schedule := (Stmt.conv ⟨.gray2, true, true⟩ 0x1000#32 0x2000#32 4#32 2#32).expand } :
      State).status.busy = false := rfl

end Sys2Proof.Tests
end

section
/-! SUPPORT. Register accesses as equations, the fields a CTRL word and a STATUS word carry, and what an operation does
to OUTLEN; then the statements about the rules of the register window (10_state.md). -/

namespace Sys2Proof

/-! ### Fields of a word -/

@[simp] theorem Mode.toBits_ofBits (b : BitVec 2) : (Mode.ofBits b).toBits = b := by
  revert b; decide

@[simp] theorem BitOrder.toBit_ofBit (b : Bool) : (BitOrder.ofBit b).toBit = b := by
  cases b <;> rfl

theorem extractLsb'_one_two_eq (w : Word) : w.extractLsb' 1 2 = BitVec.ofNat 2 (w.toNat % 8 / 2) := by
  apply BitVec.eq_of_toNat_eq
  rw [BitVec.extractLsb'_toNat, BitVec.toNat_ofNat, Nat.shiftRight_eq_div_pow]
  omega

/-- MODE is bits 2:1 of the word (30_encoding.md R70). -/
theorem decodeWord_mode_toBits (w : Word) : (decodeWord w).mode.toBits = w.extractLsb' 1 2 := by
  rw [decodeWord_eq]
  split
  next h => rw [extractLsb'_one_two_eq, h]; rfl
  split
  next h => rw [extractLsb'_one_two_eq, h]; rfl
  split
  next h => rw [extractLsb'_one_two_eq, h]; rfl
  split
  next h => rw [extractLsb'_one_two_eq, h]; rfl
  exact Mode.toBits_ofBits _

/-- BIT_ORDER is bit 3 of the word (30_encoding.md R70). -/
theorem decodeWord_order_toBit (w : Word) : (decodeWord w).order.toBit = w.getLsbD 3 := by
  rw [decodeWord_order]; exact BitOrder.toBit_ofBit _

/-- Two words that agree under a mask have the same bit wherever the mask has one. -/
theorem getLsbD_eq_of_and_eq {v w m : Word} {k : Nat} (h : v &&& m = w &&& m) (hk : m.getLsbD k = true) :
    v.getLsbD k = w.getLsbD k := by
  simpa [hk] using congrArg (·.getLsbD k) h

/-- Bits 31:5 of a CTRL word never change its meaning (30_encoding.md R75). -/
theorem decodeWord_congr {v w : Word} (h : v &&& 0x1F#32 = w &&& 0x1F#32) : decodeWord v = decodeWord w := by
  have hop : v &&& 0x7#32 = w &&& 0x7#32 := by
    simpa [BitVec.and_assoc] using congrArg (· &&& 0x7#32) h
  have h1 : v.getLsbD 1 = w.getLsbD 1 := getLsbD_eq_of_and_eq h rfl
  have h2 : v.getLsbD 2 = w.getLsbD 2 := getLsbD_eq_of_and_eq h rfl
  have h3 : ctrlOrderField v = ctrlOrderField w := congrArg BitOrder.ofBit (getLsbD_eq_of_and_eq h rfl)
  have h4 : ctrlIeField v = ctrlIeField w := getLsbD_eq_of_and_eq h rfl
  have hmode : v.extractLsb' 1 2 = w.extractLsb' 1 2 := by
    ext i hi
    obtain rfl | rfl : i = 0 ∨ i = 1 := by omega
    · simpa using h1
    · simpa using h2
  simp only [decodeWord, ctrlModeField, hop, h3, h4, hmode]

/-- The reserved bits 31:5 of a CTRL word built from its fields are 0 (30_encoding.md R70). -/
theorem ctrlFields_getLsbD_reserved (start : Bool) (m : Mode) (o : BitOrder) (ie : Bool) {k : Nat} (hk : 5 ≤ k) :
    (ctrlFields start m o ie).getLsbD k = false := by
  obtain ⟨j, rfl⟩ := Nat.exists_eq_add_of_le' hk
  simp only [ctrlFields, BitVec.getLsbD_append]
  simp

namespace Machine

/-- The reserved bits 3 and 31:8 of STATUS read 0 (10_state.md R25, R28). -/
theorem Status.toWord_getLsbD_reserved (st : Status) {k : Nat} (hk : k = 3 ∨ 8 ≤ k) :
    st.toWord.getLsbD k = false := by
  rcases hk with rfl | hk
  · simp only [Status.toWord, BitVec.getLsbD_append]; rfl
  · obtain ⟨j, rfl⟩ := Nat.exists_eq_add_of_le' hk
    simp only [Status.toWord, BitVec.getLsbD_append]
    simp

/-- A write of STATUS acts through its bits 1 and 2 alone (10_state.md R28). -/
theorem Status.acked_congr {v w : Word} (h : v &&& 0x6#32 = w &&& 0x6#32) (st : Status) :
    st.acked v = st.acked w := by
  have h1 : v.getLsbD 1 = w.getLsbD 1 := getLsbD_eq_of_and_eq h rfl
  have h2 : v.getLsbD 2 = w.getLsbD 2 := getLsbD_eq_of_and_eq h rfl
  simp only [Status.acked, h1, h2]

/-! ### Register accesses -/

theorem hostStep_regWrite {off : Nat} {r : Reg} (h : hostReg off 4 = .ok r) (v : Word) (s : State) :
    hostStep (.regWrite off 4 v) s = writeReg r v s := by
  simp only [hostStep, h]

theorem hostStep_regRead {off : Nat} {r : Reg} (h : hostReg off 4 = .ok r) (s : State) :
    hostStep (.regRead off 4) s = .next (readRegOp r s) := by
  simp only [hostStep, h]

/-- A read of a register other than STATUS changes the results alone (20_memory.md R60). -/
theorem readRegOp_of_ne_status {r : Reg} (h : r ≠ .status) (s : State) :
    readRegOp r s = s.pushResult (.word (s.readReg r)) := by
  rw [readRegOp, noteRead, if_neg (fun hc => h hc.1)]

/-- A host write of CTRL is a CTRL write of the fields the word decodes to (10_state.md R32). -/
theorem hostStep_regWrite_ctrl (v : Word) (s : State) :
    hostStep (.regWrite 0x00 4 v) s =
      writeCtrl (v.getLsbD 0) (decodeWord v).mode (decodeWord v).order (v.getLsbD 4) s := by
  rw [hostStep_regWrite (r := .ctrl) rfl, writeReg, exec_eq_writeCtrl, decodeWord_start, decodeWord_ie]

theorem hostStep_regWrite_status (v : Word) (s : State) :
    hostStep (.regWrite 0x04 4 v) s = .next (ackStatus v s) :=
  hostStep_regWrite (r := .status) rfl v s

/-! ### OUTLEN -/

@[simp] theorem completeStep_outlen (s : State) : (completeStep s).outlen = s.outlen := by
  unfold completeStep; split <;> rfl

@[simp] theorem failBus_outlen (s : State) : (failBus s).outlen = s.outlen := rfl

@[simp] theorem storeGroup_outlen (c : Conv) (s : State) : (storeGroup c s).outlen = s.outlen := rfl

@[simp] theorem hangEngine_outlen (s : State) : (hangEngine s).outlen = s.outlen := rfl

@[simp] theorem noteRead_outlen (r : Reg) (s : State) : (noteRead r s).outlen = s.outlen := by
  rw [(noteRead_eq r s).1]

@[simp] theorem readRegOp_outlen (r : Reg) (s : State) : (readRegOp r s).outlen = s.outlen := by
  simp [readRegOp]

@[simp] theorem pollOp_outlen (r : Reg) (off : Nat) (mask val : Word) (s : State) :
    (pollOp r off mask val s).outlen = s.outlen := by
  unfold pollOp; split <;> simp

@[simp] theorem loadByte_outlen (a : Nat) (s : State) : (loadByte a s).outlen = s.outlen := by
  rw [loadByte_eq]

@[simp] theorem ackStatus_outlen (v : Word) (s : State) : (ackStatus v s).outlen = s.outlen := rfl

/-- The engine never writes OUTLEN (10_state.md R30). -/
theorem engineTurn_outlen {s t : State} (h : engineTurn s = .next t) : t.outlen = s.outlen := by
  rcases engineTurn_next h with ⟨-, rfl⟩ | ⟨-, -, -, rfl⟩ | ⟨-, -, -, c, -, -, ⟨-, -, rfl⟩ | ⟨-, rfl⟩ | ⟨-, rfl⟩⟩
  all_goals simp

/-- A CTRL write changes OUTLEN at a START while idle only (10_state.md R30). -/
theorem writeCtrl_outlen {start : Bool} {m : Mode} {o : BitOrder} {ie : Bool} {s t : State}
    (h : writeCtrl start m o ie s = .next t) (hne : t.outlen ≠ s.outlen) :
    s.status.busy = false ∧ start = true := by
  rcases writeCtrl_next h with ⟨-, rfl⟩ | ⟨-, -, rfl⟩ | ⟨hb, hs, -⟩ | ⟨hb, hs, -⟩
  · exact absurd rfl hne
  · exact absurd rfl hne
  · exact ⟨hb, hs⟩
  · exact ⟨hb, hs⟩

/-- A register write changes OUTLEN at a START while idle only (10_state.md R30). -/
theorem writeReg_outlen {r : Reg} {v : Word} {s t : State} (h : writeReg r v s = .next t)
    (hne : t.outlen ≠ s.outlen) : r = .ctrl ∧ s.status.busy = false ∧ v.getLsbD 0 = true := by
  rcases writeReg_next h with ⟨hr, hw⟩ | ⟨-, rfl⟩ | ⟨-, -, rfl⟩ | ⟨-, -, rfl⟩
  · obtain ⟨hb, hs⟩ := writeCtrl_outlen hw hne
    exact ⟨hr, hb, (decodeWord_start v).symm.trans hs⟩
  all_goals simp at hne

/-- A host operation changes OUTLEN at reset and at a START while idle only (10_state.md R30, R40). -/
theorem hostStep_outlen {op : HostOp} {s t : State} (h : hostStep op s = .next t) (hne : t.outlen ≠ s.outlen) :
    op = .reset ∨ (s.status.busy = false ∧ ∃ off v,
      (op = .regWrite off 4 v ∨ op = .secondHostWrite off v) ∧ off = 0x00 ∧ v.getLsbD 0 = true) := by
  rcases hostStep_next h with ⟨off, r, v, hop, hr, hw⟩ | ⟨off, r, -, -, rfl⟩ | ⟨off, mask, val, r, -, -, rfl⟩ |
    ⟨a, v, -, rfl⟩ | ⟨a, -, rfl⟩ | ⟨hop, -⟩
  case inl =>
    obtain ⟨rfl, hb, hv⟩ := writeReg_outlen hw hne
    exact .inr ⟨hb, off, v, hop, by simpa using (hostReg_ok hr).2, hv⟩
  case inr.inr.inr.inr.inr => exact .inl hop
  all_goals simp at hne

/-- The length of a command that passes the checks fits OUTLEN: its source range of 4 bytes per pixel lies in the
address space (40_command.md R102, R103). -/
theorem validate_ok_lt {m : Mode} {n src dst k : Nat} (h : validate m n src dst = .ok k) : k < 2 ^ 32 := by
  obtain ⟨c, -, -, rfl, hs, -, -⟩ := validate_ok h
  have hn : outputLength c n ≤ n := by cases c <;> simp only [outputLength, Conv.bpp] <;> omega
  change src + 4 * n ≤ 2 ^ 32 at hs
  omega

/-- OUTLEN after a START while idle: the length of an accepted command, 0 of a rejected one (10_state.md R30). -/
theorem exec_start_outlen {s t : State} {i : Instr} (hb : s.status.busy = false) (hs : i.start = true)
    (h : exec i s = .next t) :
    (t.status.busy = true → t.outlen.toNat = t.engine.len ∧
      validate i.mode s.pixelCount s.srcAddr.toNat s.dstAddr.toNat = .ok t.outlen.toNat) ∧
    (t.status.err = true → t.outlen = 0#32) := by
  rw [exec_eq_writeCtrl, hs] at h
  rcases writeCtrl_next h with ⟨hb', -⟩ | ⟨-, hs', -⟩ | ⟨-, -, e, -, rfl⟩ | ⟨-, -, n, hv, -, rfl⟩
  · simp [hb] at hb'
  · cases hs'
  · exact ⟨fun hbusy => Bool.noConfusion hbusy, fun _ => rfl⟩
  · refine ⟨fun _ => ?_, fun herr => Bool.noConfusion herr⟩
    have hn : (BitVec.ofNat 32 n : Word).toNat = n := by
      rw [BitVec.toNat_ofNat, Nat.mod_eq_of_lt (validate_ok_lt hv)]
    simp only [acceptCommand, hn]
    exact ⟨trivial, hv⟩

end Machine

/-! ### The statements -/

open Machine

/-- Settles O5: the write is `writeCtrl` of the fields the word decodes to, whose three cases are R32's. -/
theorem ctrlWriteAndReadFollowTheRule : Obligations.CtrlWriteAndReadFollowTheRule := by
  intro s v
  refine ⟨(decodeWord v).mode, (decodeWord v).order, decodeWord_mode_toBits v, decodeWord_order_toBit v, ?_, ?_, ?_, ?_⟩
  · intro hb hv
    rw [hostStep_regWrite_ctrl, hv, writeCtrl_configure _ _ _ hb]; rfl
  · intro hb hv
    rw [hostStep_regWrite_ctrl, hv, writeCtrl_start _ _ _ hb]; rfl
  · intro hb
    rw [hostStep_regWrite_ctrl, writeCtrl_busy _ _ _ _ hb]; rfl
  · rw [hostStep_regRead (r := .ctrl) rfl, readRegOp_of_ne_status (by decide)]; rfl

/-- Settles O47: a write of CTRL acts through bits 4:0 and one of STATUS through bits 2:1; no reserved bit is stored. -/
theorem reservedAndReadOnlyIgnoreWrites : Obligations.ReservedAndReadOnlyIgnoreWrites := by
  refine ⟨fun s v => ⟨?_, ?_⟩, fun s => ⟨rfl, ?_⟩, fun s k => ⟨?_, ?_⟩, fun s v w h => ?_, fun s v w h => ?_,
    fun s t v h => ?_⟩
  · exact hostStep_regWrite (r := .rsvd) rfl v s
  · exact hostStep_regWrite (r := .outlen) rfl v s
  · rw [hostStep_regRead (r := .rsvd) rfl, readRegOp_of_ne_status (by decide)]; rfl
  · exact ctrlFields_getLsbD_reserved _ _ _ _
  · exact s.status.toWord_getLsbD_reserved
  · rw [hostStep_regWrite (r := .ctrl) rfl, hostStep_regWrite (r := .ctrl) rfl, writeReg, writeReg, decodeWord_congr h]
  · rw [hostStep_regWrite_status, hostStep_regWrite_status, ackStatus, ackStatus, Status.acked_congr h]
  · rw [hostStep_regWrite_status] at h
    cases h
    exact ⟨rfl, fun hv => if_neg (Bool.eq_false_iff.mp hv)⟩

/-- Settles O50: a START while idle ends in `acceptCommand` or `rejectCommand`, and no engine turn and no other host
operation but reset writes OUTLEN. -/
theorem outlenChangesOnlyAtAnIdleStart : Obligations.OutlenChangesOnlyAtAnIdleStart := by
  refine ⟨fun s t i _ hb hs h => exec_start_outlen hb hs h, fun s t h hne => ?_⟩
  rcases step_cases s with ⟨-, hst⟩ | ⟨rest, -, hst⟩ | ⟨op, rest, hsch, hst⟩ <;> rw [hst] at h
  · exact absurd (engineTurn_outlen h) hne
  · exact absurd (engineTurn_outlen h) hne
  · exact ⟨op, rest, hsch, hostStep_outlen (s := { s with schedule := rest }) h hne⟩

end Sys2Proof
end

section
/-! SUPPORT. The fields of the word an instruction encodes to, and decoding as the inverse of encoding; then the
statement about the table of CTRL values (30_encoding.md). -/

namespace Sys2Proof

/-! ### The fields of an encoded word -/

theorem ctrlFields_start (start : Bool) (m : Mode) (o : BitOrder) (ie : Bool) :
    (ctrlFields start m o ie).getLsbD 0 = start := by
  simp only [ctrlFields, BitVec.getLsbD_append]; simp

theorem ctrlFields_mode (start : Bool) (m : Mode) (o : BitOrder) (ie : Bool) :
    (ctrlFields start m o ie).extractLsb' 1 2 = m.toBits := by
  apply BitVec.eq_of_getLsbD_eq
  intro k hk
  obtain rfl | rfl : k = 0 ∨ k = 1 := by omega
  all_goals simp only [ctrlFields, BitVec.getLsbD_extractLsb', BitVec.getLsbD_append]; simp

theorem ctrlFields_order (start : Bool) (m : Mode) (o : BitOrder) (ie : Bool) :
    (ctrlFields start m o ie).getLsbD 3 = o.toBit := by
  simp only [ctrlFields, BitVec.getLsbD_append]; simp

theorem ctrlFields_ie (start : Bool) (m : Mode) (o : BitOrder) (ie : Bool) :
    (ctrlFields start m o ie).getLsbD 4 = ie := by
  simp only [ctrlFields, BitVec.getLsbD_append]; simp

/-! ### Decoding an encoded word -/

@[simp] theorem Mode.ofBits_toBits (m : Mode) : Mode.ofBits m.toBits = m := by
  cases m <;> rfl

@[simp] theorem BitOrder.ofBit_toBit (o : BitOrder) : BitOrder.ofBit o.toBit = o := by
  cases o <;> rfl

/-- The instruction with the given fields: START and MODE name its row of the opcode map (30_encoding.md R71). -/
def Instr.ofFields (start : Bool) (mode : Mode) (order : BitOrder) (ie : Bool) : Instr :=
  match start, mode with
  | true, .mono => .convMono order ie
  | true, .gray8 => .convGray8 order ie
  | true, .gray2 => .convGray2 order ie
  | true, .reserved => .reservedMode order ie
  | false, m => .ctrlSet m order ie

/-- An instruction is determined by its fields (30_encoding.md R70, R71). -/
theorem Instr.ofFields_fields (i : Instr) : Instr.ofFields i.start i.mode i.order i.ie = i := by
  cases i <;> rfl

/-- Decoding undoes encoding: each field of the encoded word is the instruction's own (30_encoding.md R70, R71). -/
@[simp] theorem decodeWord_encode (i : Instr) : decodeWord (encode i) = i := by
  have hstart : (decodeWord (encode i)).start = i.start := by
    rw [decodeWord_start, encode, ctrlFields_start]
  have hmode : (decodeWord (encode i)).mode = i.mode := by
    rw [← Mode.ofBits_toBits (decodeWord (encode i)).mode, decodeWord_mode_toBits, encode, ctrlFields_mode,
      Mode.ofBits_toBits]
  have horder : (decodeWord (encode i)).order = i.order := by
    rw [decodeWord_order, ctrlOrderField, encode, ctrlFields_order, BitOrder.ofBit_toBit]
  have hie : (decodeWord (encode i)).ie = i.ie := by
    rw [decodeWord_ie, encode, ctrlFields_ie]
  rw [← Instr.ofFields_fields (decodeWord (encode i)), hstart, hmode, horder, hie, Instr.ofFields_fields]

/-! ### The statement -/

/-- Settles O1: the encoder gives every row of the table its value, and decoding undoes encoding. -/
theorem specCtrlValuesEncodeAndDecode : Obligations.SpecCtrlValuesEncodeAndDecode := by
  intro p hp
  have henc : encode p.2 = p.1 := by
    revert p; decide
  exact ⟨henc, henc ▸ decodeWord_encode p.2⟩

end Sys2Proof
end

section
/-! SUPPORT. The rules of a command (40_command.md): the checks at START, the sizes they are given, an empty command,
the completion step and the packer; then the statements about them. -/

namespace Sys2Proof

namespace Machine

/-! ### The checks at START -/

/-- The checks that follow the one on MODE (40_command.md R103). -/
theorem validate_conv (c : Conv) (n src dst : Nat) :
    validate c.mode n src dst =
      if n % 8 ≠ 0 then .error .dim
      else if 2 ^ 32 < src + 4 * n ∨ 2 ^ 32 < dst + n * c.bpp / 8 then .error .range
      else if 0 < n ∧ src < dst + n * c.bpp / 8 ∧ dst < src + 4 * n then .error .overlap
      else .ok (n * c.bpp / 8) := by
  rw [validate, conv?_mode]; rfl

/-- The output of a size that passes the check fills whole bytes (40_command.md R102). -/
theorem eight_mul_outputLength (c : Conv) {n : Nat} (hn : n % 8 = 0) : 8 * outputLength c n = n * c.bpp := by
  cases c <;> simp only [outputLength, Conv.bpp] <;> omega

theorem outputLength_le (c : Conv) (n : Nat) : outputLength c n ≤ n := by
  cases c <;> simp only [outputLength, Conv.bpp] <;> omega

/-- An empty command passes the checks at any addresses (40_command.md R110). -/
theorem validate_empty (c : Conv) {n : Nat} (hn : n = 0) (src dst : Word) :
    validate c.mode n src.toNat dst.toNat = .ok 0 := by
  subst hn
  have hsrc := src.isLt
  have hdst := dst.isLt
  rw [validate_conv, if_neg (by decide), if_neg (by omega), if_neg (by omega), Nat.zero_mul]

/-! ### A START while idle -/

theorem exec_convInstr (c : Conv) (o : BitOrder) (ie : Bool) (s : State) :
    exec (convInstr c o ie) s = writeCtrl true c.mode o ie s := by
  rw [exec_eq_writeCtrl]; cases c <;> rfl

theorem startCommand_accept {s : State} {n : Nat} (hv : s.validated = .ok n) (ht : s.touchesSideEffects n = false) :
    startCommand s = .next (acceptCommand n (s.setStatus s.status.cleared)) := by
  simp only [startCommand_eq, hv, ht]; rfl

/-- An empty command has no byte, so none with side effects (20_memory.md R56, 40_command.md R110). -/
theorem touchesSideEffects_empty {s : State} (hn : s.pixelCount = 0) : s.touchesSideEffects 0 = false := by
  rw [← Bool.not_eq_true, touchesSideEffects_iff, hn]
  rintro ⟨-, -, a, -, ha⟩
  omega

/-! ### WIDTH and HEIGHT replaced -/

/-- The state with other values of WIDTH and HEIGHT. -/
def State.withDims (s : State) (w h : Config.Dim) : State := { s with width := w, height := h }

/-- The outcome with its next state replaced, if it has one. -/
def mapNext (f : State → State) : Host.Outcome State Fault Refusal → Host.Outcome State Fault Refusal
  | .next s => .next (f s)
  | .fault e => .fault e
  | .refused e => .refused e

section
variable {s : State} {w h : Config.Dim}

theorem State.validated_withDims (hn : w.toNat * h.toNat = s.pixelCount) :
    (s.withDims w h).validated = s.validated :=
  congrArg (validate s.ctrl.mode · s.srcAddr.toNat s.dstAddr.toNat) hn

theorem State.touchesSideEffects_withDims (hn : w.toNat * h.toNat = s.pixelCount) (n : Nat) :
    (s.withDims w h).touchesSideEffects n = s.touchesSideEffects n := by
  have hr : (s.withDims w h).srcRange = s.srcRange :=
    congrArg (fun k => (⟨s.srcAddr.toNat, Config.BYTES_PER_PIXEL * k⟩ : Region)) hn
  rw [State.touchesSideEffects, hr]; rfl

theorem startCommand_withDims (hn : w.toNat * h.toNat = s.pixelCount) :
    startCommand (s.withDims w h) = mapNext (·.withDims w h) (startCommand s) := by
  rw [startCommand_eq, startCommand_eq, State.validated_withDims hn]
  cases s.validated with
  | error e => rfl
  | ok n =>
    simp only [State.touchesSideEffects_withDims hn]
    cases s.touchesSideEffects n <;> rfl

/-- An instruction sees WIDTH and HEIGHT through the pixel count alone (40_command.md R101). -/
theorem exec_withDims (i : Instr) (hn : w.toNat * h.toNat = s.pixelCount) :
    exec i (s.withDims w h) = mapNext (·.withDims w h) (exec i s) := by
  rw [exec_eq_writeCtrl, exec_eq_writeCtrl]
  cases hb : s.status.busy
  · cases i.start
    · rw [writeCtrl_configure _ _ _ hb, writeCtrl_configure _ _ _ (s := s.withDims w h) hb]; rfl
    · rw [writeCtrl_start _ _ _ hb, writeCtrl_start _ _ _ (s := s.withDims w h) hb]
      exact startCommand_withDims (s := s.setCtrl _) hn
  · rw [writeCtrl_busy _ _ _ _ hb, writeCtrl_busy _ _ _ _ (s := s.withDims w h) hb]; rfl

theorem groupStepOf_withDims (c : Conv) :
    groupStepOf c (s.withDims w h) = mapNext (·.withDims w h) (groupStepOf c s) := by
  have hspace : (s.withDims w h).groupInSpace c = s.groupInSpace c := rfl
  have hread : (s.withDims w h).readAnswer c = s.readAnswer c := rfl
  have hwrite : (s.withDims w h).writeAnswer = s.writeAnswer := rfl
  simp only [groupStepOf, hspace, hread, hwrite]
  cases s.groupInSpace c
  · rfl
  · cases s.readAnswer c <;> cases s.writeAnswer <;> rfl

theorem groupStep_withDims : groupStep (s.withDims w h) = mapNext (·.withDims w h) (groupStep s) := by
  have hmode : (s.withDims w h).engine.mode = s.engine.mode := rfl
  simp only [groupStep, hmode]
  cases s.engine.mode.conv? with
  | none => rfl
  | some c => exact groupStepOf_withDims c

theorem completeStep_withDims : completeStep (s.withDims w h) = (completeStep s).withDims w h := by
  have hd : (s.withDims w h).disturbed = s.disturbed := rfl
  simp only [completeStep, hd]
  cases s.disturbed <;> rfl

/-- The engine never sees WIDTH and HEIGHT (40_command.md R101). -/
theorem engineTurn_withDims : engineTurn (s.withDims w h) = mapNext (·.withDims w h) (engineTurn s) := by
  have hturn : ((s.withDims w h).status.busy && !(s.withDims w h).hung) = (s.status.busy && !s.hung) := rfl
  have hengine : (s.withDims w h).engine = s.engine := rfl
  simp only [engineTurn, hturn, hengine, groupStep_withDims, completeStep_withDims]
  split
  · split
    · rfl
    · split <;> rfl
  · rfl

end

/-! ### The completion step -/

/-- The engine's turn once every output byte is produced (40_command.md R104). -/
theorem engineTurn_complete {s : State} (hb : s.status.busy = true) (hh : s.hung = false)
    (hg : s.engine.g = s.engine.len) : engineTurn s = .next (completeStep s) := by
  simp [engineTurn, hb, hh, hg]

theorem completeStep_undisturbed {s : State} (hd : s.disturbed = false) :
    completeStep s = { s with status := s.status.completed } := by
  simp [completeStep, hd]

@[simp] theorem completeStep_status (s : State) : (completeStep s).status = s.status.completed := by
  unfold completeStep; split <;> rfl

@[simp] theorem completeStep_ctrl (s : State) : (completeStep s).ctrl = s.ctrl := by
  unfold completeStep; split <;> rfl

@[simp] theorem completeStep_engine (s : State) : (completeStep s).engine = s.engine := by
  unfold completeStep; split <;> rfl

/-- The completion step changes no byte outside the destination range (40_command.md R106, 20_memory.md R67). -/
theorem completeStep_read_outside {s : State} {a : Nat} (hI : s.Inv) (hb : s.status.busy = true)
    (ha : ¬s.IsDest a) : (completeStep s).mem.read a = s.mem.read a := by
  unfold completeStep
  split
  · refine Memory.read_drawBytes_outside _ hI.memWf (hI.dest_in_space hb) ?_
    unfold State.IsDest at ha
    omega
  · rfl

/-- STATUS of a running command carries no report, so at completion it reports DONE alone (10_state.md R27). -/
theorem Status.Legal.completed_eq {st : Status} (hL : st.Legal) (hb : st.busy = true) :
    st.completed = { busy := false, done := true, err := false, errcode := 0#4 } := by
  obtain ⟨-, herr, hcode⟩ := hL.1 hb
  simp only [Status.completed, herr, hcode]

/-! ### The packer -/

/-- Digit `j` of a number written out in base `p`. -/
theorem ofDigits_div_pow_mod {p : Nat} {ds : List Nat} (hds : ∀ d ∈ ds, d < p) {j : Nat} (hj : j < ds.length) :
    Nat.ofDigits p ds / p ^ j % p = ds[j] := by
  have hd : ds[j] < p := hds _ (List.getElem_mem hj)
  rw [Nat.ofDigits_div_pow_eq_ofDigits_drop j (by omega) ds hds, List.drop_eq_getElem_cons hj, Nat.ofDigits_cons,
    Nat.add_mul_mod_self_left, Nat.mod_eq_of_lt hd]

/-- LSB-first packing from index `j` on writes the values out in base `2^w`, the first one lowest. -/
theorem packLsb_toNat (w j : Nat) (vs : List Byte) :
    (packLsb w j vs).toNat = 2 ^ (w * j) * Nat.ofDigits (2 ^ w) (vs.map BitVec.toNat) % 2 ^ 8 := by
  induction vs generalizing j with
  | nil => simp [packLsb]
  | cons v vs ih =>
    rw [packLsb, BitVec.toNat_add, BitVec.toNat_shiftLeft, Nat.shiftLeft_eq, ih, ← Nat.add_mod, List.map_cons,
      Nat.ofDigits_cons, Nat.mul_add w j 1, Nat.pow_add, Nat.mul_one, Nat.mul_add, Nat.mul_comm v.toNat, Nat.mul_assoc]

/-- MSB-first packing into an accumulator that holds `a` above its low `w` bits writes the values out below `a` in base
`2^w`, the last one lowest, as long as they fit the byte. -/
theorem packMsb_toNat {w a : Nat} {acc : Byte} {vs : List Byte} (hne : vs ≠ []) (hvs : ∀ v ∈ vs, v.toNat < 2 ^ w)
    (hacc : acc.toNat = a * 2 ^ w) (hfit : (a + 1) * (2 ^ w) ^ vs.length ≤ 2 ^ 8) :
    (packMsb w acc vs).toNat = Nat.ofDigits (2 ^ w) ((vs.map BitVec.toNat).reverse ++ [a]) := by
  induction vs generalizing acc a with
  | nil => exact absurd rfl hne
  | cons v vs ih =>
    have hv : v.toNat < 2 ^ w := hvs v List.mem_cons_self
    have hor : (acc ||| v).toNat = a * 2 ^ w + v.toNat := by
      rw [BitVec.toNat_or, hacc, Nat.mul_comm, Nat.two_pow_add_eq_or_of_lt hv]
    cases vs with
    | nil =>
      rw [packMsb, hor, List.map_singleton, List.reverse_singleton, List.singleton_append, Nat.ofDigits_cons,
        Nat.ofDigits_singleton]
      ring
    | cons u us =>
      have hle : (a * 2 ^ w + v.toNat + 1) * (2 ^ w) ^ (u :: us).length ≤ 2 ^ 8 := by
        refine le_trans ?_ hfit
        rw [List.length_cons (a := v), Nat.pow_succ', ← Nat.mul_assoc, Nat.add_mul a 1, Nat.one_mul]
        exact Nat.mul_le_mul_right _ (by omega)
      have hlt : (a * 2 ^ w + v.toNat) * 2 ^ w < 2 ^ 8 := by
        calc (a * 2 ^ w + v.toNat) * 2 ^ w
            < (a * 2 ^ w + v.toNat + 1) * 2 ^ w := Nat.mul_lt_mul_of_pos_right (Nat.lt_succ_self _) (Nat.two_pow_pos w)
          _ ≤ (a * 2 ^ w + v.toNat + 1) * (2 ^ w) ^ (u :: us).length :=
            Nat.mul_le_mul_left _ (Nat.le_self_pow (by simp) _)
          _ ≤ 2 ^ 8 := hle
      have hshift : ((acc ||| v) <<< w).toNat = (a * 2 ^ w + v.toNat) * 2 ^ w := by
        rw [BitVec.toNat_shiftLeft, hor, Nat.shiftLeft_eq, Nat.mod_eq_of_lt hlt]
      rw [packMsb, ih (by simp) (fun x hx => hvs x (List.mem_cons_of_mem _ hx)) hshift hle]
      rw [List.map_cons (a := v), List.reverse_cons, List.append_assoc, Nat.ofDigits_append, Nat.ofDigits_append]
      simp only [List.singleton_append, Nat.ofDigits_cons, Nat.ofDigits_nil]
      ring

end Machine

/-! ### The statements -/

open Machine

/-- Settles O10: the four clauses are the branches of `validate`, and `validate_ok` gives what an accepted command has
passed. -/
theorem validateReportsTheFirstFailingCheck : Obligations.ValidateReportsTheFirstFailingCheck := by
  intro n src dst
  refine ⟨validate_reserved n src dst, fun c => ⟨?_, ?_, ?_, ?_⟩, ?_⟩
  · intro hdim
    rw [validate_conv, if_pos hdim]
  · intro hdim hrange
    rw [validate_conv, if_neg (not_not.2 hdim), if_pos hrange]
  · intro hdim hsrc hdst hover
    rw [validate_conv, if_neg (not_not.2 hdim), if_neg (by omega), if_pos hover]
  · intro hdim hsrc hdst hover
    rw [validate_conv, if_neg (not_not.2 hdim), if_neg (by omega), if_neg hover]
  · intro m k hv
    obtain ⟨c, -, -, hk, hsrc, hdst, hapart⟩ := validate_ok hv
    have hkn : k ≤ n := hk ▸ outputLength_le c n
    have hspace : Config.addrSpace = 2 ^ 32 := rfl
    rw [hspace] at hsrc hdst
    refine ⟨by omega, by omega, by omega, hsrc, hdst, ?_⟩
    rintro a ⟨h1, h2, h3, h4⟩
    have := hapart (by omega)
    omega

/-- Settles O13: every clause is the exact division `8 * outputLength c n = n * c.bpp`. -/
theorem outputLengthOfEachMode : Obligations.OutputLengthOfEachMode := by
  intro n hn
  have hmono : 8 * outputLength .mono n = n * 1 := eight_mul_outputLength .mono hn
  have hgray8 : 8 * outputLength .gray8 n = n * 8 := eight_mul_outputLength .gray8 hn
  have hgray2 : 8 * outputLength .gray2 n = n * 2 := eight_mul_outputLength .gray2 hn
  refine ⟨by omega, by omega, by omega, fun c => ?_⟩
  have hc := eight_mul_outputLength c hn
  exact ⟨hc, by omega⟩

/-- Settles O14: instructions and engine turns commute with replacing WIDTH and HEIGHT by factors of the same pixel
count. -/
theorem pixelCountIsExactAndAllThatMatters : Obligations.PixelCountIsExactAndAllThatMatters := by
  refine ⟨fun s => ⟨rfl, ?_, by norm_num⟩, fun s w h hn => ⟨fun i t ht => ?_, fun t ht => ?_⟩⟩
  · have hw := s.width_lt
    have hh := s.height_lt
    rw [State.pixelCount, Nat.pow_two]
    exact Nat.mul_le_mul (by omega) (by omega)
  · exact (exec_withDims i hn).trans (congrArg (mapNext (·.withDims w h)) ht)
  · exact engineTurn_withDims.trans (congrArg (mapNext (·.withDims w h)) ht)

/-- Settles O15: the command passes the checks with length 0, so the engine starts at its completion step. -/
theorem emptyCommandCompletesWithoutAccess : Obligations.EmptyCommandCompletesWithoutAccess := by
  intro c s o ie hb hwh
  have hn : s.pixelCount = 0 := by
    rcases hwh with h | h <;> simp [State.pixelCount, h]
  have hv : (s.setCtrl { mode := c.mode, order := o, ie := ie }).validated = .ok 0 :=
    validate_empty c hn s.srcAddr s.dstAddr
  refine ⟨acceptCommand 0 ((s.setCtrl { mode := c.mode, order := o, ie := ie }).setStatus s.status.cleared),
    ?_, rfl, rfl, rfl, rfl, ?_⟩
  · rw [exec_convInstr, writeCtrl_start _ _ _ hb, startCommand_accept hv (touchesSideEffects_empty hn)]; rfl
  · rw [engineTurn_complete rfl rfl rfl, completeStep_undisturbed rfl]; rfl

/-- Settles O19: in either order the byte is the values written out in base `2^w`, and a field is a digit. -/
theorem packPlacesEveryValue : Obligations.PackPlacesEveryValue := by
  intro w vs hw hlen hvs j hj
  have hbits : w * vs.length = 8 := by rw [hlen]; rcases hw with rfl | rfl | rfl <;> rfl
  have hbase : 1 < 2 ^ w := Nat.one_lt_two_pow (by rintro rfl; omega)
  have hbyte : (2 ^ w) ^ vs.length = 2 ^ 8 := by rw [← Nat.pow_mul, hbits]
  have hds : ∀ d ∈ vs.map BitVec.toNat, d < 2 ^ w := by simpa using hvs
  constructor
  · have hplace : 8 - w * (j + 1) = w * (vs.length - 1 - j) := by
      rw [← hbits, ← Nat.mul_sub]; congr 1; omega
    have hpack := packMsb_toNat (acc := 0#8) (a := 0) (List.ne_nil_of_length_pos (by omega)) hvs (by simp)
      (by rw [hbyte]; decide)
    rw [Nat.ofDigits_append, Nat.ofDigits_singleton, Nat.mul_zero, Nat.add_zero] at hpack
    rw [pack, hpack, hplace, Nat.pow_mul, ofDigits_div_pow_mod (by simpa using hvs) (by simp; omega)]
    simp only [List.getElem_reverse, List.getElem_map, List.length_map]
    congr 2
    omega
  · have hlt := Nat.ofDigits_lt_base_pow_length hbase hds
    rw [List.length_map, hbyte] at hlt
    rw [pack, packLsb_toNat, Nat.mul_zero, Nat.pow_zero, Nat.one_mul, Nat.mod_eq_of_lt hlt, Nat.pow_mul,
      ofDigits_div_pow_mod hds (by simpa using hj), List.getElem_map]

/-- Settles O29: the turn is `completeStep`, which draws the destination range at most; the final bytes are
`Progress` at `E.g = E.L`. -/
theorem completionStepReportsDone : Obligations.CompletionStepReportsDone := by
  intro s hI hb hh hg
  have hturn := engineTurn_complete hb hh hg
  have hdone := hI.status.completed_eq hb
  refine ⟨⟨completeStep s, hturn, ?_, ?_, ?_, ?_, ?_⟩, ?_, ?_⟩
  · rw [completeStep_status, hdone]
  · simp [State.irq, hdone]
  · exact completeStep_outlen s
  · exact completeStep_engine s
  · exact fun a ha => completeStep_read_outside hI hb ha
  · intro hd
    rw [hturn, completeStep_undisturbed hd, hdone]
  · intro hP hd c tr hm htr i hi
    have hconv : s.engine.mode.conv? = some c := hm ▸ conv?_mode c
    obtain ⟨-, hbytes⟩ := hP hb hd c tr hconv htr
    exact hbytes i (hg ▸ hi)

end Sys2Proof
end

section
/-! SUPPORT. The black/white classifier, and the output bytes of a raster whose pixels are all the same, for each
conversion; then the statements about them (41_mono.md). -/

namespace Sys2Proof

namespace Machine

/-! ### The classifier -/

/-- One dark channel makes a pixel black (41_mono.md R121). -/
theorem black_of_lt {p : Pixel} (h : p.r.toNat < 150 ∨ p.g.toNat < 150 ∨ p.b.toNat < 150) : black p = 1#8 :=
  if_pos h

/-- A pixel with no dark channel is white (41_mono.md R121). -/
theorem black_of_le {p : Pixel} (h : 150 ≤ p.r.toNat ∧ 150 ≤ p.g.toNat ∧ 150 ≤ p.b.toNat) : black p = 0#8 :=
  if_neg (by simp only [Config.T_MONO]; omega)

/-! ### Uniform rasters -/

/-- The output byte of a conversion for a group whose pixels are all `p`; it does not depend on the group. -/
def uniformByte (c : Conv) (p : Pixel) (o : BitOrder) : Byte :=
  match c with
  | .mono => pack 1 o (List.replicate Config.GROUP_MONO (black p))
  | .gray8 => gray8 p
  | .gray2 => pack 2 o (List.replicate Config.GROUP_GRAY2 (quant2 (gray8 p)))

/-- The pixels of every group of the output lie in the raster (40_command.md R102, R105). -/
theorem group_pixel_lt {c : Conv} {n g j : Nat} (hn : n % 8 = 0) (hg : g < outputLength c n) (hj : j < c.group) :
    c.group * g + j < n := by
  calc c.group * g + j < c.group * (g + 1) := by rw [Nat.mul_succ]; omega
    _ ≤ c.group * outputLength c n := Nat.mul_le_mul_left _ hg
    _ = n := group_mul_outputLength hn

/-- The values a conversion packs for a group of equal pixels are all the same. -/
theorem map_readPixel_of_uniform {m : Memory} {src i k : Nat} {p : Pixel} (f : Pixel → Byte)
    (h : ∀ j, j < k → readPixel m src (i + j) = p) :
    ((List.range k).map fun j => f (readPixel m src (i + j))) = List.replicate k (f p) := by
  rw [List.map_congr_left (g := fun _ => f p) fun j hj => by rw [h j (List.mem_range.1 hj)]]
  simp

/-- Every output byte of a raster of `n` pixels `p` is the uniform byte of `p`. -/
theorem groupByte_of_uniform (c : Conv) {m : Memory} {src n g : Nat} {p : Pixel} (o : BitOrder) (hn : n % 8 = 0)
    (hp : ∀ i, i < n → readPixel m src i = p) (hg : g < outputLength c n) :
    groupByte c m src g o = uniformByte c p o := by
  have hgroup : ∀ j, j < c.group → readPixel m src (c.group * g + j) = p :=
    fun j hj => hp _ (group_pixel_lt hn hg hj)
  cases c with
  | mono => exact congrArg (pack 1 o) (map_readPixel_of_uniform black hgroup)
  | gray8 => exact congrArg gray8 (hgroup 0 (by decide))
  | gray2 => exact congrArg (pack 2 o) (map_readPixel_of_uniform (fun q => quant2 (gray8 q)) hgroup)

/-- The uniform byte of the white pixel: 00 in MONO, FF in the gray modes (41_mono.md R122, 42_gray8.md R143,
43_gray2.md R163). -/
theorem uniformByte_white (c : Conv) (o : BitOrder) :
    uniformByte c { r := 255#8, g := 255#8, b := 255#8 } o = if c = .mono then 0x00#8 else 0xFF#8 := by
  cases c with
  | mono => cases o <;> decide
  | gray8 => rfl
  | gray2 => cases o <;> decide

/-- The uniform byte of the black pixel: FF in MONO, 00 in the gray modes (41_mono.md R122, 42_gray8.md R143,
43_gray2.md R163). -/
theorem uniformByte_black (c : Conv) (o : BitOrder) :
    uniformByte c { r := 0#8, g := 0#8, b := 0#8 } o = if c = .mono then 0xFF#8 else 0x00#8 := by
  cases c with
  | mono => cases o <;> decide
  | gray8 => rfl
  | gray2 => cases o <;> decide

/-- The output bytes of the three conversions of a uniform raster, at the lengths of 40_command.md R102. -/
theorem groupBytes_of_uniform {m : Memory} {src n : Nat} {p : Pixel} (o : BitOrder) (hn : n % 8 = 0)
    (hp : ∀ i, i < n → readPixel m src i = p) :
    (∀ g, g < n / 8 → groupByteMono m src g o = uniformByte .mono p o) ∧
    (∀ g, g < n → groupByteGray8 m src g = uniformByte .gray8 p o) ∧
    (∀ g, g < n / 4 → groupByteGray2 m src g o = uniformByte .gray2 p o) := by
  obtain ⟨hmono, hgray8, hgray2, -⟩ := outputLengthOfEachMode n hn
  exact ⟨fun _ hg => groupByte_of_uniform .mono o hn hp (hg.trans_eq hmono.symm),
    fun _ hg => groupByte_of_uniform .gray8 o hn hp (hg.trans_eq hgray8.symm),
    fun _ hg => groupByte_of_uniform .gray2 o hn hp (hg.trans_eq hgray2.symm)⟩

end Machine

/-! ### The statements -/

open Machine

/-- Settles O22: each output byte is the uniform byte of its conversion and pixel. -/
theorem uniformRastersGiveUniformBytes : Obligations.UniformRastersGiveUniformBytes := by
  intro m src n o hn
  obtain ⟨hmono, hgray8, hgray2, -⟩ := outputLengthOfEachMode n hn
  refine ⟨hmono, hgray8, hgray2, fun hwhite => ?_, fun hblack => ?_⟩
  · simpa [uniformByte_white] using groupBytes_of_uniform o hn hwhite
  · simpa [uniformByte_black] using groupBytes_of_uniform o hn hblack

/-- Settles O16: a pixel has a channel below 150 or has none, and the two cases have different bits. -/
theorem blackExactlyWhenAChannelIsBelow150 : Obligations.BlackExactlyWhenAChannelIsBelow150 := by
  intro p
  by_cases hdark : p.r.toNat < 150 ∨ p.g.toNat < 150 ∨ p.b.toNat < 150
  · rw [black_of_lt hdark]
    exact ⟨iff_of_true rfl hdark, iff_of_false (by decide) (by omega)⟩
  · have hlight : 150 ≤ p.r.toNat ∧ 150 ≤ p.g.toNat ∧ 150 ≤ p.b.toNat := by omega
    rw [black_of_le hlight]
    exact ⟨iff_of_false (by decide) hdark, iff_of_true rfl hlight⟩

end Sys2Proof
end

section
/-! SUPPORT. The gray-value unit as exact integer arithmetic; then the statement about it (42_gray8.md). -/

namespace Sys2Proof

namespace Machine

/-! ### The gray-value unit -/

/-- The sum of the channels does not exceed 765 (42_gray8.md R141). -/
theorem channelSum_le (p : Pixel) : p.r.toNat + p.g.toNat + p.b.toNat ≤ 765 := by
  have hr := p.r.isLt
  have hg := p.g.isLt
  have hb := p.b.isLt
  omega

/-- The rounded mean fits the byte, so nothing of it is cut off (42_gray8.md R141, R142). -/
theorem toNat_gray8 (p : Pixel) : (gray8 p).toNat = (p.r.toNat + p.g.toNat + p.b.toNat + 1) / 3 := by
  have hsum := channelSum_le p
  rw [gray8, BitVec.toNat_ofNat, Nat.mod_eq_of_lt (by omega)]

/-- Three times the gray value is within 1 of the sum, since the sum is `3q`, `3q + 1` or `3q + 2` (42_gray8.md R142). -/
theorem three_mul_gray8 (p : Pixel) :
    p.r.toNat + p.g.toNat + p.b.toNat ≤ 3 * (gray8 p).toNat + 1 ∧
    3 * (gray8 p).toNat ≤ p.r.toNat + p.g.toNat + p.b.toNat + 1 := by
  rw [toNat_gray8]
  omega

end Machine

/-! ### The statement -/

open Machine

/-- Settles O17: three times the gray value is within 1 of the sum, which is nearer than one half of 3, and an integer
within one half is within 1 as well, where two multiples of 3 cannot both lie. -/
theorem grayValueIsTheNearestIntegerToTheMean : Obligations.GrayValueIsTheNearestIntegerToTheMean := by
  intro p
  obtain ⟨hlow, hhigh⟩ := three_mul_gray8 p
  refine ⟨_, rfl, channelSum_le p, toNat_gray8 p, by omega, by omega, fun n hn hn' => ?_⟩
  have hnlow : p.r.toNat + p.g.toNat + p.b.toNat ≤ 3 * n + 1 := by omega
  have hnhigh : 3 * n ≤ p.r.toNat + p.g.toNat + p.b.toNat + 1 := by omega
  omega

end Sys2Proof
end

section
/-! SUPPORT. The quantization unit, one equation per range; then the statement about it (43_gray2.md). -/

namespace Sys2Proof

namespace Machine

/-! ### The quantization unit -/

/-- Level 0, black: no threshold is exceeded (43_gray2.md R161). -/
theorem quant2_of_le_64 {y : Byte} (h : y.toNat ≤ 64) : quant2 y = 0#8 := by
  have h3 : ¬ Config.Q_T3 < y.toNat := Nat.not_lt.mpr (h.trans (by decide))
  have h2 : ¬ Config.Q_T2 < y.toNat := Nat.not_lt.mpr (h.trans (by decide))
  have h1 : ¬ Config.Q_T1 < y.toNat := Nat.not_lt.mpr h
  rw [quant2, if_neg h3, if_neg h2, if_neg h1]

/-- Level 1, dark gray: only the first threshold is exceeded (43_gray2.md R161). -/
theorem quant2_of_mem_65_128 {y : Byte} (hlow : 65 ≤ y.toNat) (hhigh : y.toNat ≤ 128) : quant2 y = 1#8 := by
  have h3 : ¬ Config.Q_T3 < y.toNat := Nat.not_lt.mpr (hhigh.trans (by decide))
  have h2 : ¬ Config.Q_T2 < y.toNat := Nat.not_lt.mpr hhigh
  have h1 : Config.Q_T1 < y.toNat := hlow
  rw [quant2, if_neg h3, if_neg h2, if_pos h1]

/-- Level 2, light gray: the second threshold is exceeded and the third is not (43_gray2.md R161). -/
theorem quant2_of_mem_129_192 {y : Byte} (hlow : 129 ≤ y.toNat) (hhigh : y.toNat ≤ 192) : quant2 y = 2#8 := by
  have h3 : ¬ Config.Q_T3 < y.toNat := Nat.not_lt.mpr hhigh
  have h2 : Config.Q_T2 < y.toNat := hlow
  rw [quant2, if_neg h3, if_pos h2]

/-- Level 3, white: the third threshold is exceeded (43_gray2.md R161). -/
theorem quant2_of_193_le {y : Byte} (h : 193 ≤ y.toNat) : quant2 y = 3#8 :=
  if_pos (show Config.Q_T3 < y.toNat from h)

end Machine

/-! ### The statement -/

open Machine

/-- Settles O18: the equations of the quantization unit, range by range. -/
theorem quantLevelsCoverTheFourRanges : Obligations.QuantLevelsCoverTheFourRanges :=
  fun _ => ⟨quant2_of_le_64, quant2_of_mem_65_128, quant2_of_mem_129_192, quant2_of_193_le⟩

end Sys2Proof
end

section
/-! SUPPORT. What a rejected START does, what each operation leaves of IE, DONE and ERR, and the interrupt output as
their function; then the statements about errors and the interrupt (60_exceptions.md). -/

namespace Sys2Proof

/-! ### A rejected START -/

/-- The four causes a rejection can have, with their ERRCODE (60_exceptions.md R180). -/
theorem CmdError.code_of_ne_bus {e : CmdError} (h : e ≠ .bus) :
    (e = .mode ∧ e.code = 1#4) ∨ (e = .dim ∧ e.code = 2#4) ∨ (e = .range ∧ e.code = 3#4) ∨
      (e = .overlap ∧ e.code = 4#4) := by
  cases e with
  | mode => exact .inl ⟨rfl, rfl⟩
  | dim => exact .inr (.inl ⟨rfl, rfl⟩)
  | range => exact .inr (.inr (.inl ⟨rfl, rfl⟩))
  | overlap => exact .inr (.inr (.inr ⟨rfl, rfl⟩))
  | bus => exact absurd rfl h

namespace Machine

/-- The checks at START never report ERR_BUS, which only an access of a running command raises (60_exceptions.md
R180). -/
theorem validate_ne_bus (m : Mode) (n src dst : Nat) : validate m n src dst ≠ .error .bus := by
  cases hm : m.conv? with
  | none => simp [validate, hm]
  | some c =>
    rw [mode_of_conv? hm, validate_conv]
    split_ifs <;> simp

theorem startCommand_reject {s : State} {e : CmdError} (hv : s.validated = .error e) :
    startCommand s = .next (rejectCommand e (s.setStatus s.status.cleared)) := by
  simp only [startCommand_eq, hv]

/-- A START that fails a check while idle stores its fields and is rejected (40_command.md R100, 60_exceptions.md
R181). -/
theorem exec_reject {i : Instr} {s : State} {e : CmdError} (hb : s.status.busy = false) (hs : i.start = true)
    (hv : validate i.mode s.pixelCount s.srcAddr.toNat s.dstAddr.toNat = .error e) :
    exec i s = .next (rejectCommand e
      ((s.setCtrl { mode := i.mode, order := i.order, ie := i.ie }).setStatus s.status.cleared)) := by
  rw [exec_eq_writeCtrl, hs, writeCtrl_start _ _ _ hb]
  exact startCommand_reject hv

/-! ### The interrupt output -/

/-- IRQ is a level, a function of IE, DONE and ERR (10_state.md R34). -/
theorem State.irq_iff (s : State) :
    s.irq = true ↔ s.ctrl.ie = true ∧ (s.status.done = true ∨ s.status.err = true) := by
  simp only [State.irq, Bool.and_eq_true, Bool.or_eq_true]

theorem State.irq_of_not_ie {s : State} (h : s.ctrl.ie = false) : s.irq = false := by
  simp [State.irq, h]

theorem State.irq_of_no_report {s : State} (hd : s.status.done = false) (he : s.status.err = false) :
    s.irq = false := by
  simp [State.irq, hd, he]

/-- A rejection raises ERR, so IRQ is the stored IE (60_exceptions.md R181, R185). -/
theorem rejectCommand_irq (e : CmdError) (s : State) : (rejectCommand e s).irq = s.ctrl.ie := by
  simp [State.irq, rejectCommand, raiseCmdError, Status.failed]

/-- DONE and ERR are never set together (10_state.md R27). -/
theorem Status.Legal.err_of_done {st : Status} (hL : st.Legal) (hd : st.done = true) : st.err = false := by
  obtain ⟨-, hexcl, -, -⟩ := hL
  exact hexcl hd

theorem Status.Legal.done_of_err {st : Status} (hL : st.Legal) (he : st.err = true) : st.done = false :=
  Bool.eq_false_iff.2 fun hd => Bool.eq_false_iff.1 (hL.err_of_done hd) he

/-- IE holds what the last CTRL write stored, in every case of the write (10_state.md R32). -/
theorem exec_ie {i : Instr} {s t : State} (h : exec i s = .next t) : t.ctrl.ie = i.ie := by
  rw [exec_eq_writeCtrl] at h
  rcases writeCtrl_next h with ⟨-, rfl⟩ | ⟨-, -, rfl⟩ | ⟨-, -, e, -, rfl⟩ | ⟨-, -, n, -, -, rfl⟩
  all_goals rfl

/-- An accepted START leaves no report of an earlier command (40_command.md R100). -/
theorem exec_accepted_no_report {i : Instr} {s t : State} (hb : s.status.busy = false) (h : exec i s = .next t)
    (ht : t.status.busy = true) : t.status.done = false ∧ t.status.err = false := by
  rw [exec_eq_writeCtrl] at h
  rcases writeCtrl_next h with ⟨hb', -⟩ | ⟨-, -, rfl⟩ | ⟨-, -, e, -, rfl⟩ | ⟨-, -, n, -, -, rfl⟩
  · simp [hb] at hb'
  · simp [hb] at ht
  · exact Bool.noConfusion ht
  · exact ⟨rfl, rfl⟩

/-- An acknowledgement clears DONE when its bit is set, and sets nothing (10_state.md R28). -/
theorem ackStatus_done (v : Word) (s : State) : (ackStatus v s).status.done = (s.status.done && !v.getLsbD 1) := by
  change (if v.getLsbD 1 then false else s.status.done) = _
  cases v.getLsbD 1 <;> simp

/-- An acknowledgement clears ERR when its bit is set, and sets nothing (10_state.md R28). -/
theorem ackStatus_err (v : Word) (s : State) : (ackStatus v s).status.err = (s.status.err && !v.getLsbD 2) := by
  change (if v.getLsbD 2 then false else s.status.err) = _
  cases v.getLsbD 2 <;> simp

/-- Reset clears IE (10_state.md R40). -/
theorem resetBlock_ie (s : State) : (resetBlock s).ctrl.ie = false := rfl

end Machine

/-! ### The statements -/

open Machine

/-- Settles O11: the START is `rejectCommand` on the stored fields and the cleared STATUS; the checks never report
ERR_BUS, so the code is one of the other four. -/
theorem rejectedStartHasExactlyTheseEffects : Obligations.RejectedStartHasExactlyTheseEffects := by
  intro i s e hb hs hv
  have hne : e ≠ .bus := by
    rintro rfl
    exact validate_ne_bus _ _ _ _ hv
  refine ⟨e.code, CmdError.code_of_ne_bus hne, ?_, fun t ht => ?_⟩
  · rw [exec_reject hb hs hv]; rfl
  · rw [exec_reject hb hs hv] at ht
    cases ht
    exact rejectCommand_irq e _

/-- Settles O45: DONE and ERR exclude each other, so acknowledging the one that is set leaves none; an accepted START
clears both; a CTRL write and reset store the IE they name. -/
theorem interruptIsALevelOfStatusAndEnable : Obligations.InterruptIsALevelOfStatusAndEnable := by
  refine ⟨State.irq_iff, ?_, ?_, ?_, ?_, ?_⟩
  · intro s t v hI hdone hv h
    rw [hostStep_regWrite_status] at h
    cases h
    have herr := hI.status.err_of_done hdone
    exact State.irq_of_no_report (by simp [ackStatus_done, hv]) (by simp [ackStatus_err, herr])
  · intro s t v hI herr hv h
    rw [hostStep_regWrite_status] at h
    cases h
    have hdone := hI.status.done_of_err herr
    exact State.irq_of_no_report (by simp [ackStatus_done, hdone]) (by simp [ackStatus_err, hv])
  · intro s t i h hie
    exact State.irq_of_not_ie ((exec_ie h).trans hie)
  · intro s t i hb _ h ht
    obtain ⟨hdone, herr⟩ := exec_accepted_no_report hb h ht
    exact State.irq_of_no_report hdone herr
  · intro s t h
    cases h
    exact State.irq_of_not_ie (resetBlock_ie s)

end Sys2Proof
end

section
/-! SUPPORT. What the reset input leaves: the registers, the memory outside a running command's destination range, and
an engine without a step; then the statement about reset (70_reset_and_hazards.md). -/

namespace Sys2Proof.Machine

theorem hostStep_reset (s : State) : hostStep .reset s = .next (resetBlock s) := rfl

/-- Every register reads 0 in the reset state (10_state.md R40). -/
theorem State.reset_readReg (r : Reg) : State.reset.readReg r = 0#32 := by
  cases r <;> decide

/-- The reset input gives every register its reset value (70_reset_and_hazards.md R200). -/
theorem resetBlock_readReg (s : State) (r : Reg) : (resetBlock s).readReg r = State.reset.readReg r := by
  cases r <;> rfl

theorem resetBlock_engine (s : State) : (resetBlock s).engine = State.reset.engine := rfl

theorem resetBlock_status (s : State) : (resetBlock s).status = State.reset.status := rfl

/-- Reset changes no byte of memory while idle (70_reset_and_hazards.md R200). -/
theorem resetBlock_mem_idle {s : State} (hb : s.status.busy = false) : (resetBlock s).mem = s.mem := by
  simp [resetBlock_mem, hb]

/-- Giving a running command's destination bytes free values changes no other byte. -/
theorem State.drawDest_read_outside {s : State} {a : Nat} (hI : s.Inv) (hb : s.status.busy = true)
    (ha : ¬s.IsDest a) : s.drawDest.mem.read a = s.mem.read a := by
  rw [State.IsDest] at ha
  exact Memory.read_drawBytes_outside _ hI.memWf (hI.dest_in_space hb) (by omega)

/-- Reset changes no byte outside the destination range of a running command (70_reset_and_hazards.md R201). -/
theorem resetBlock_read_outside {s : State} {a : Nat} (hI : s.Inv) (ha : ¬(s.status.busy = true ∧ s.IsDest a)) :
    (resetBlock s).mem.read a = s.mem.read a := by
  cases hb : s.status.busy
  case false => rw [resetBlock_mem_idle hb]
  case true =>
    rw [resetBlock_mem, if_pos hb]
    exact State.drawDest_read_outside hI hb fun hd => ha ⟨hb, hd⟩

/-- While BUSY = 0 the engine has no step (40_command.md R104). -/
theorem engineTurn_idle {s : State} (hb : s.status.busy = false) : engineTurn s = .next s := by
  simp [engineTurn, hb]

end Sys2Proof.Machine

namespace Sys2Proof

/-! ### The statement -/

open Machine

/-- Settles O52: the next state is `resetBlock s`, whose registers and engine are those of `State.reset`; the
invariant keeps a running command's destination range inside the address space, so the bytes drawn there are all that
change. -/
theorem resetInputClearsTheBlock : Obligations.ResetInputClearsTheBlock := by
  intro s hI
  have hbusy : (resetBlock s).status.busy = false := by rw [resetBlock_status]; rfl
  refine ⟨resetBlock s, hostStep_reset s, fun r => (resetBlock_readReg s r).trans (State.reset_readReg r),
    resetBlock_engine s, State.irq_of_not_ie (resetBlock_ie s), hbusy, ?done, ?err,
    resetBlock_mem_idle, fun a => resetBlock_read_outside hI, engineTurn_idle hbusy⟩
  case done => rw [resetBlock_status]; rfl
  case err => rw [resetBlock_status]; rfl

end Sys2Proof
end

section
/-! SUPPORT. A word's value as the fields the decoder reads, encoding as the inverse of decoding, and the step that a
CTRL write at the head of the schedule makes; then the statements about them (30_encoding.md). -/

namespace Sys2Proof

/-! ### Encoding a decoded word -/

/-- The mask of the fields has no bit above IE. -/
theorem fieldsMask_getLsbD {k : Nat} (hk : 5 ≤ k) : (0x1F#32 : Word).getLsbD k = false :=
  Nat.testBit_lt_two_pow (x := 0x1F) (Nat.lt_of_lt_of_le (by decide) (Nat.pow_le_pow_right (by decide) hk))

/-- Bits 4:0 of a word are START, MODE, BIT_ORDER and IE (30_encoding.md R70). -/
theorem and_eq_of_fields {v w : Word} (hstart : v.getLsbD 0 = w.getLsbD 0)
    (hmode : v.extractLsb' 1 2 = w.extractLsb' 1 2) (horder : v.getLsbD 3 = w.getLsbD 3)
    (hie : v.getLsbD 4 = w.getLsbD 4) : v &&& 0x1F#32 = w &&& 0x1F#32 := by
  have hmode0 : v.getLsbD 1 = w.getLsbD 1 := by simpa using congrArg (·.getLsbD 0) hmode
  have hmode1 : v.getLsbD 2 = w.getLsbD 2 := by simpa using congrArg (·.getLsbD 1) hmode
  apply BitVec.eq_of_getLsbD_eq
  intro k _
  rw [BitVec.getLsbD_and, BitVec.getLsbD_and]
  match k with
  | 0 => rw [hstart]
  | 1 => rw [hmode0]
  | 2 => rw [hmode1]
  | 3 => rw [horder]
  | 4 => rw [hie]
  | j + 5 => rw [fieldsMask_getLsbD (by omega), Bool.and_false, Bool.and_false]

/-- The word of an instruction has no bit above IE (30_encoding.md R70). -/
theorem encode_and_fields (i : Instr) : encode i &&& 0x1F#32 = encode i := by
  apply BitVec.eq_of_getLsbD_eq
  intro k _
  rw [BitVec.getLsbD_and]
  match k with
  | 0 | 1 | 2 | 3 | 4 => exact Bool.and_true _
  | j + 5 => rw [encode, ctrlFields_getLsbD_reserved _ _ _ _ (by omega), Bool.false_and]

/-- Encoding undoes decoding but for the ignored bits 31:5 (30_encoding.md R75). -/
theorem encode_decodeWord (w : Word) : encode (decodeWord w) = w &&& 0x1F#32 := by
  rw [← encode_and_fields]
  refine and_eq_of_fields ?_ ?_ ?_ ?_ <;> rw [encode]
  · rw [ctrlFields_start, decodeWord_start]
  · rw [ctrlFields_mode, decodeWord_mode_toBits]
  · rw [ctrlFields_order, decodeWord_order_toBit]
  · rw [ctrlFields_ie, decodeWord_ie]

/-- The word of an instruction has zero reserved bits (30_encoding.md R70). -/
theorem ctrlWordWf_encode (i : Instr) : ctrlWordWf (encode i) = true :=
  match i with
  | .convMono o ie => Laws.ReservedBitsZero.convMono o ie
  | .convGray8 o ie => Laws.ReservedBitsZero.convGray8 o ie
  | .convGray2 o ie => Laws.ReservedBitsZero.convGray2 o ie
  | .reservedMode o ie => Laws.ReservedBitsZero.reservedMode o ie
  | .ctrlSet m o ie => Laws.ReservedBitsZero.ctrlSet m o ie

/-! ### The opcode map -/

/-- The opcode is bits 2:0 of the word (30_encoding.md R71). -/
theorem extractLsb'_zero_three_eq_iff (w : Word) {k : Nat} (hk : k < 8) :
    w.extractLsb' 0 3 = BitVec.ofNat 3 k ↔ w.toNat % 8 = k := by
  rw [← BitVec.toNat_inj, BitVec.extractLsb'_toNat, BitVec.toNat_ofNat, Nat.shiftRight_zero,
    Nat.mod_eq_of_lt (a := k) hk]

/-- With START clear the word is CTRL.SET of its fields (30_encoding.md R71). -/
theorem decodeWord_of_not_start {w : Word} (h : w.getLsbD 0 = false) :
    decodeWord w = .ctrlSet (ctrlModeField w) (ctrlOrderField w) (ctrlIeField w) := by
  have heven : ¬w.toNat % 2 = 1 := of_decide_eq_false ((getLsbD_zero_eq w).symm.trans h)
  rw [decodeWord_eq, if_neg (by omega), if_neg (by omega), if_neg (by omega), if_neg (by omega)]

/-- MODE and its two bits determine each other (10_state.md R26). -/
theorem ctrlModeField_eq_iff (w : Word) (m : Mode) : ctrlModeField w = m ↔ w.extractLsb' 1 2 = m.toBits := by
  constructor
  · rintro rfl; exact (Mode.toBits_ofBits _).symm
  · intro h; rw [ctrlModeField, h, Mode.ofBits_toBits]

theorem ctrlOrderField_eq_lsbFirst_iff (w : Word) : ctrlOrderField w = .lsbFirst ↔ w.getLsbD 3 = true := by
  rw [ctrlOrderField]
  cases w.getLsbD 3 <;> simp [BitOrder.ofBit]

namespace Machine

/-! ### The step of a CTRL write -/

/-- A host write of CTRL runs the instruction its word decodes to (30_encoding.md R70). -/
theorem hostStep_regWrite_ctrl_exec (w : Word) (s : State) :
    hostStep (.regWrite 0x00 4 w) s = exec (decodeWord w) s :=
  hostStep_regWrite (r := .ctrl) rfl w s

/-- A host operation at the head of the schedule runs on the state whose schedule has lost it. -/
theorem step_host {s : State} {op : HostOp} {rest : List Event} (h : s.schedule = .host op :: rest) :
    step s = hostStep op { s with schedule := rest } := by
  rw [step, h]; rfl

/-- The number of a table row that decodes fits its length, and its word decodes to the same (30_encoding.md R71). -/
theorem decodeTableWord_some {nbits w : Nat} {i : Instr} (h : decodeTableWord nbits w = some i) :
    w < 2 ^ nbits ∧ decodeWord (BitVec.ofNat 32 w) = i := by
  unfold decodeTableWord decodeBits at h
  split at h
  next j hj =>
    split at hj
    · cases hj
    · split at hj
      · cases hj
      next hw =>
        cases hj
        cases h
        exact ⟨Nat.not_le.1 hw, rfl⟩
  · cases h

/-- The step of a state given a command word is the instruction the word decodes to. -/
theorem step_withFetchWord {s : State} {nbits w : Nat} {i : Instr} (h : decodeTableWord nbits w = some i) :
    step (s.withFetchWord nbits w) = exec i s := by
  obtain ⟨hw, rfl⟩ := decodeTableWord_some h
  rw [step_host (s := s.withFetchWord nbits w) rfl, hostStep_regWrite_ctrl_exec, Nat.mod_eq_of_lt hw]
  rfl

end Machine

/-! ### The statements -/

open Machine

/-- Settles O2: every field survives the round trip in both directions, and the reserved bits are the only ones that the
encoder drops. -/
theorem decodeAndEncodeAgreeOnEveryWord : Obligations.DecodeAndEncodeAgreeOnEveryWord := by
  refine ⟨fun i _ => ⟨decodeWord_encode i, ctrlWordWf_encode i⟩, encode_decodeWord, fun w v => ⟨decodeWord_congr, ?_⟩⟩
  intro h
  rw [← encode_decodeWord, h, encode_decodeWord]

/-- Settles O3: the opcode is the word modulo 8; while BUSY an instruction is a CTRL write that stores IE alone. -/
theorem decodeFollowsTheOpcodeMap : Obligations.DecodeFollowsTheOpcodeMap := by
  refine ⟨fun w => ⟨ctrlOrderField w, ctrlOrderField_eq_lsbFirst_iff w, ?_, ?_, ?_, ?_, ?_⟩, fun w s hb => ?_⟩
  · intro h
    rw [decodeWord_eq, (extractLsb'_zero_three_eq_iff w (k := 1) (by decide)).1 h]; rfl
  · intro h
    rw [decodeWord_eq, (extractLsb'_zero_three_eq_iff w (k := 3) (by decide)).1 h]; rfl
  · intro h
    rw [decodeWord_eq, (extractLsb'_zero_three_eq_iff w (k := 5) (by decide)).1 h]; rfl
  · intro h
    rw [decodeWord_eq, (extractLsb'_zero_three_eq_iff w (k := 7) (by decide)).1 h]; rfl
  · intro h
    exact ⟨ctrlModeField w, decodeWord_of_not_start h, ctrlModeField_eq_iff w .mono, ctrlModeField_eq_iff w .gray8,
      ctrlModeField_eq_iff w .gray2, ctrlModeField_eq_iff w .reserved⟩
  · rw [exec_eq_writeCtrl, writeCtrl_busy _ _ _ _ hb, decodeWord_ie]; rfl

/-- Settles O4: the schedule's head is the host's write of CTRL, and `withFetchWord` puts one there. -/
theorem stepRunsTheDecodedCtrlWrite : Obligations.StepRunsTheDecodedCtrlWrite :=
  ⟨fun _ w _ h => (step_host h).trans (hostStep_regWrite_ctrl_exec w _), fun _ _ _ _ h => step_withFetchWord h⟩

end Sys2Proof
end

section
/-! SUPPORT. Every next state of a host operation by name, and what engine turns and host operations keep of the
invariant and of a running command's arguments; then the statements about the invariant (10_state.md, 40_command.md §1). -/

namespace Sys2Proof.Machine

/-! ### What a host operation can do -/

/-- The operation is a 32-bit write of `v` to CTRL, by either host (60_exceptions.md R189). -/
def HostOp.WritesCtrl (op : HostOp) (v : Word) : Prop := op = .regWrite 0x00 4 v ∨ op = .secondHostWrite 0x00 v

/-- The next states of a host operation, each with what it tells of the operation and of the state before. -/
inductive HostEffect (s : State) : HostOp → State → Prop where
  | ignored (op : HostOp) : HostEffect s op s
  | ieStored (op : HostOp) (ie : Bool) (hb : s.status.busy = true) :
      HostEffect s op (s.setCtrl { s.ctrl with ie := ie })
  | configured (op : HostOp) (c : Ctrl) (hb : s.status.busy = false) : HostEffect s op (s.setCtrl c)
  | rejected (op : HostOp) (v : Word) (c : Ctrl) (e : CmdError) (hop : op.WritesCtrl v) (hv : v.getLsbD 0 = true)
      (hb : s.status.busy = false) (he : validate c.mode s.pixelCount s.srcAddr.toNat s.dstAddr.toNat = .error e) :
      HostEffect s op (rejectCommand e ((s.setCtrl c).setStatus s.status.cleared))
  | accepted (op : HostOp) (c : Ctrl) (n : Nat) (hb : s.status.busy = false)
      (hn : validate c.mode s.pixelCount s.srcAddr.toNat s.dstAddr.toNat = .ok n)
      (ht : s.touchesSideEffects n = false) :
      HostEffect s op (acceptCommand n ((s.setCtrl c).setStatus s.status.cleared))
  | acked (op : HostOp) (v : Word) : HostEffect s op (ackStatus v s)
  | argStored (op : HostOp) (r : Reg) (v : Word) (hb : s.status.busy = false) : HostEffect s op (s.setArg r v)
  | read (op : HostOp) (r : Reg) : HostEffect s op (readRegOp r s)
  | polled (op : HostOp) (r : Reg) (off : Nat) (mask val : Word) : HostEffect s op (pollOp r off mask val s)
  | stored (a : Word) (v : Byte) : HostEffect s (.sb a v) (storeByte a.toNat v s)
  | loaded (a : Word) : HostEffect s (.lb a) (loadByte a.toNat s)
  | reset : HostEffect s .reset (resetBlock s)

theorem hostStep_effect {op : HostOp} {s t : State} (h : hostStep op s = .next t) : HostEffect s op t := by
  rcases hostStep_next h with ⟨off, r, v, hop, hr, hw⟩ | ⟨off, r, -, -, rfl⟩ | ⟨off, mask, val, r, -, -, rfl⟩ |
    ⟨a, v, rfl, rfl⟩ | ⟨a, rfl, rfl⟩ | ⟨rfl, rfl⟩
  · rcases writeReg_next hw with ⟨rfl, hc⟩ | ⟨-, rfl⟩ | ⟨-, hb, rfl⟩ | ⟨-, -, rfl⟩
    · obtain rfl : off = 0x00 := by simpa using (hostReg_ok hr).2
      rcases writeCtrl_next hc with ⟨hb, rfl⟩ | ⟨hb, -, rfl⟩ | ⟨hb, hs, e, he, rfl⟩ | ⟨hb, -, n, hn, ht, rfl⟩
      · exact .ieStored _ _ hb
      · exact .configured _ _ hb
      · exact .rejected _ v _ e hop ((decodeWord_start v).symm.trans hs) hb he
      · exact .accepted _ _ n hb hn ht
    · exact .acked _ v
    · exact .argStored _ r v hb
    · exact .ignored _
  · exact .read _ r
  · exact .polled _ r off mask val
  · exact .stored a v
  · exact .loaded a
  · exact .reset

/-! ### What each operation leaves -/

/-- A register read while BUSY makes nothing visible (20_memory.md R60). -/
theorem noteRead_busy {s : State} (r : Reg) (hb : s.status.busy = true) : noteRead r s = s :=
  if_neg fun h => Bool.noConfusion (hb.symm.trans h.2)

@[simp] theorem noteRead_status (r : Reg) (s : State) : (noteRead r s).status = s.status := by
  rw [(noteRead_eq r s).1]

@[simp] theorem noteRead_mem (r : Reg) (s : State) : (noteRead r s).mem = s.mem := by
  rw [(noteRead_eq r s).1]

/-- A register read drops unobserved commands and adds none. -/
theorem noteRead_unsynced_subset {r : Reg} {s : State} {t : Transfer} (h : t ∈ (noteRead r s).unsynced) :
    t ∈ s.unsynced := by
  rcases (noteRead_eq r s).2 with he | ⟨-, he⟩
  · exact he ▸ h
  · rw [he] at h; cases h

@[simp] theorem pollOp_status (r : Reg) (off : Nat) (mask val : Word) (s : State) :
    (pollOp r off mask val s).status = s.status := by
  unfold pollOp; split <;> exact noteRead_status r s

@[simp] theorem pollOp_mem (r : Reg) (off : Nat) (mask val : Word) (s : State) :
    (pollOp r off mask val s).mem = s.mem := by
  unfold pollOp; split <;> exact noteRead_mem r s

@[simp] theorem pollOp_unsynced (r : Reg) (off : Nat) (mask val : Word) (s : State) :
    (pollOp r off mask val s).unsynced = (noteRead r s).unsynced := by
  unfold pollOp; split <;> rfl

@[simp] theorem loadByte_status (a : Nat) (s : State) : (loadByte a s).status = s.status := by rw [loadByte_eq]

@[simp] theorem loadByte_mem (a : Nat) (s : State) : (loadByte a s).mem = s.mem := by rw [loadByte_eq]

@[simp] theorem loadByte_unsynced (a : Nat) (s : State) : (loadByte a s).unsynced = s.unsynced := by rw [loadByte_eq]

@[simp] theorem completeStep_unsynced (s : State) : (completeStep s).unsynced = s.unsynced := by
  unfold completeStep; split <;> rfl

@[simp] theorem resetBlock_unsynced (s : State) : (resetBlock s).unsynced = s.unsynced := by
  unfold resetBlock; split <;> rfl

/-! ### The canonical form of memory -/

/-- Memory and the old memories of the unobserved commands are in canonical form. -/
def State.MemWf (s : State) : Prop := s.mem.wf = true ∧ ∀ t ∈ s.unsynced, t.old.wf = true

theorem State.Inv.mems {s : State} (hI : s.Inv) : s.MemWf := ⟨hI.memWf, hI.oldWf⟩

theorem State.Inv.drawDest_wf {s : State} (hI : s.Inv) (hb : s.status.busy = true) : s.drawDest.mem.wf = true :=
  Memory.drawBytes_wf _ hI.memWf (hI.dest_in_space hb)

theorem engineTurn_memWf {s t : State} (hI : s.Inv) (h : engineTurn s = .next t) : t.MemWf := by
  rcases engineTurn_next h with ⟨-, rfl⟩ | ⟨hb, -, -, rfl⟩ | ⟨hb, -, -, c, -, hs, ⟨-, -, rfl⟩ | ⟨-, rfl⟩ | ⟨-, rfl⟩⟩
  · exact hI.mems
  · refine ⟨?_, by rw [completeStep_unsynced]; exact hI.oldWf⟩
    unfold completeStep
    split
    · exact hI.drawDest_wf hb
    · exact hI.memWf
  · exact ⟨Memory.write_wf _ hI.memWf (groupInSpace_iff.1 hs).2, hI.oldWf⟩
  · exact ⟨Memory.drawBytes_wf _ hI.memWf (hI.dest_in_space hb), hI.oldWf⟩
  · exact hI.mems

theorem HostEffect.memWf {s t : State} {op : HostOp} (hI : s.Inv) (h : HostEffect s op t) : t.MemWf := by
  cases h with
  | ignored | ieStored | configured | rejected | acked => exact hI.mems
  | accepted _ c n => exact ⟨hI.memWf, List.forall_mem_cons.2 ⟨hI.memWf, hI.oldWf⟩⟩
  | argStored _ r v => exact ⟨by simpa using hI.memWf, by simpa using hI.oldWf⟩
  | read _ r => exact ⟨by simpa [readRegOp] using hI.memWf, fun t ht => hI.oldWf t (noteRead_unsynced_subset ht)⟩
  | polled _ r => exact ⟨by simpa using hI.memWf, fun t ht => hI.oldWf t (noteRead_unsynced_subset (by simpa using ht))⟩
  | stored a v =>
    refine ⟨Memory.write_wf _ hI.memWf a.isLt, ?_⟩
    rw [storeByte_unsynced]
    exact List.forall_mem_map.2 fun t ht => Transfer.settle_wf (hI.oldWf t ht) a.isLt
  | loaded a => exact ⟨by simpa using hI.memWf, by simpa using hI.oldWf⟩
  | reset =>
    refine ⟨?_, by simpa using hI.oldWf⟩
    rw [resetBlock_mem]
    split
    next hb => exact hI.drawDest_wf hb
    next => exact hI.memWf

/-! ### The legal combinations of STATUS -/

/-- ERRCODE is 1 to 5 (60_exceptions.md R180). -/
theorem errcode_bounds (e : CmdError) : 1 ≤ e.code.toNat ∧ e.code.toNat ≤ 5 := by
  cases e <;> decide

theorem Status.Legal.cleared_failed (st : Status) (e : CmdError) : (st.cleared.failed e).Legal :=
  ⟨nofun, nofun, nofun, fun _ => errcode_bounds e⟩

theorem Status.Legal.failed {st : Status} (hL : st.Legal) (hb : st.busy = true) (e : CmdError) :
    (st.failed e).Legal := by
  obtain ⟨hdone, -, -⟩ := hL.1 hb
  exact ⟨nofun, fun h => by simp [Status.failed, hdone] at h, nofun, fun _ => errcode_bounds e⟩

theorem Status.Legal.completed {st : Status} (hL : st.Legal) (hb : st.busy = true) : st.completed.Legal := by
  rw [hL.completed_eq hb]
  exact ⟨nofun, fun _ => rfl, fun _ => rfl, nofun⟩

theorem Status.Legal.acked {st : Status} (hL : st.Legal) (v : Word) : (st.acked v).Legal := by
  obtain ⟨hbusy, hdone, hnone, herr⟩ := hL
  unfold Status.acked
  cases v.getLsbD 1 <;> cases v.getLsbD 2 <;> simp_all [Status.Legal]

theorem engineTurn_legal {s t : State} (hL : s.status.Legal) (h : engineTurn s = .next t) : t.status.Legal := by
  rcases engineTurn_next h with ⟨-, rfl⟩ | ⟨hb, -, -, rfl⟩ | ⟨hb, -, -, c, -, -, ⟨-, -, rfl⟩ | ⟨-, rfl⟩ | ⟨-, rfl⟩⟩
  · exact hL
  · rw [completeStep_status]; exact hL.completed hb
  · exact hL
  · exact hL.failed hb .bus
  · exact hL

theorem HostEffect.legal {s t : State} {op : HostOp} (hL : s.status.Legal) (h : HostEffect s op t) :
    t.status.Legal := by
  cases h with
  | ignored | ieStored | configured => exact hL
  | rejected _ v c e => exact Status.Legal.cleared_failed s.status e
  | accepted => exact ⟨fun _ => ⟨rfl, rfl, rfl⟩, nofun, fun _ => rfl, nofun⟩
  | acked _ v => exact hL.acked v
  | argStored | polled | loaded => simpa using hL
  | read _ r => simpa [readRegOp] using hL
  | stored => exact hL
  | reset => exact ⟨nofun, nofun, fun _ => rfl, nofun⟩

/-! ### The arguments of a running command -/

/-- What the engine runs a command with, and the destination range noted for it. No step changes it while the command
runs (20_memory.md §6). -/
structure CommandArgs where
  srcAddr : Word
  dstAddr : Word
  width : Config.Dim
  height : Config.Dim
  mode : Mode
  order : BitOrder
  outlen : Word
  len : Nat
  engineMode : Mode
  engineOrder : BitOrder
  platform : Platform
  transfer : Option (Nat × Nat)

def State.args (s : State) : CommandArgs where
  srcAddr := s.srcAddr
  dstAddr := s.dstAddr
  width := s.width
  height := s.height
  mode := s.ctrl.mode
  order := s.ctrl.order
  outlen := s.outlen
  len := s.engine.len
  engineMode := s.engine.mode
  engineOrder := s.engine.order
  platform := s.platform
  transfer := s.unsynced.head?.map fun t => (t.dst, t.len)

/-- The engine is where it was, or past one more output byte of the command. -/
def State.Advances (s t : State) : Prop :=
  t.engine.g = s.engine.g ∨ (s.engine.g < s.engine.len ∧ t.engine.g = s.engine.g + 1)

theorem State.Running.of_args {s t : State} (h : s.Running) (ha : t.args = s.args) (hg : s.Advances t) :
    t.Running := by
  simp only [State.args, CommandArgs.mk.injEq] at ha
  obtain ⟨hsrc, hdst, hw, hh, hmode, horder, hout, hlen, hemode, heorder, hplat, htr⟩ := ha
  have hcount : t.pixelCount = s.pixelCount := by rw [State.pixelCount, hw, hh]; rfl
  refine ⟨?_, ?_, ?_, ?_, ?_, ?_, ?_⟩
  · rw [hemode, hmode, h.mode]
  · rw [heorder, horder, h.order]
  · rw [State.validated, hmode, hcount, hsrc, hdst, hlen]; exact h.valid
  · rw [hout, hlen, h.outlen]
  · have hin := h.inside
    unfold State.Advances at hg
    omega
  · rw [State.touchesSideEffects, State.srcRange, State.dstRange, hcount, hplat, hsrc, hdst, hlen]
    exact h.ordinary
  · rw [htr, hdst, hlen]; exact h.transfer

theorem engineTurn_args {s t : State} (h : engineTurn s = .next t) (ht : t.status.busy = true) :
    t.args = s.args ∧ s.Advances t := by
  rcases engineTurn_next h with ⟨-, rfl⟩ | ⟨-, -, -, rfl⟩ | ⟨-, -, hg, c, -, -, ⟨-, -, rfl⟩ | ⟨-, rfl⟩ | ⟨-, rfl⟩⟩
  · exact ⟨rfl, .inl rfl⟩
  · rw [completeStep_status] at ht; cases ht
  · exact ⟨rfl, .inr ⟨hg, rfl⟩⟩
  · cases ht
  · exact ⟨rfl, .inl rfl⟩

/-- A host operation while BUSY, if it does not end the command, leaves its arguments and the engine. -/
theorem HostEffect.args {s t : State} {op : HostOp} (h : HostEffect s op t) (hs : s.status.busy = true)
    (ht : t.status.busy = true) : t.args = s.args ∧ t.engine = s.engine := by
  cases h with
  | ignored | ieStored | acked => exact ⟨rfl, rfl⟩
  | configured _ _ hb | rejected _ _ _ _ _ _ hb | accepted _ _ _ hb | argStored _ _ _ hb =>
    exact Bool.noConfusion (hs.symm.trans hb)
  | read _ r => rw [readRegOp, noteRead_busy r hs]; exact ⟨rfl, rfl⟩
  | polled _ r =>
    rw [pollOp, noteRead_busy r hs]
    split <;> exact ⟨rfl, rfl⟩
  | stored a v =>
    refine ⟨?_, rfl⟩
    cases hu : s.unsynced <;> simp [State.args, hu]
  | loaded a => rw [loadByte_eq]; exact ⟨rfl, rfl⟩
  | reset => cases ht

/-- A host operation while idle makes the engine BUSY by an accepted START alone. -/
theorem HostEffect.accepted_of_busy {s t : State} {op : HostOp} (h : HostEffect s op t) (hs : s.status.busy = false)
    (ht : t.status.busy = true) : ∃ c n,
      validate c.mode s.pixelCount s.srcAddr.toNat s.dstAddr.toNat = .ok n ∧ s.touchesSideEffects n = false ∧
      t = acceptCommand n ((s.setCtrl c).setStatus s.status.cleared) := by
  cases h with
  | accepted _ c n _ hn hse => exact ⟨c, n, hn, hse, rfl⟩
  | rejected | reset => cases ht
  | ignored | ieStored | configured | acked | stored => exact Bool.noConfusion (hs.symm.trans ht)
  | argStored | polled | loaded => simp [hs] at ht
  | read => simp [readRegOp, hs] at ht

theorem acceptCommand_running {s : State} {c : Ctrl} {n : Nat}
    (hn : validate c.mode s.pixelCount s.srcAddr.toNat s.dstAddr.toNat = .ok n)
    (ht : s.touchesSideEffects n = false) :
    (acceptCommand n ((s.setCtrl c).setStatus s.status.cleared)).Running :=
  ⟨rfl, rfl, hn, by rw [acceptCommand, BitVec.toNat_ofNat, Nat.mod_eq_of_lt (validate_ok_lt hn)], Nat.zero_le n, ht,
    rfl⟩

/-! ### The invariant -/

theorem State.Inv.of_parts {s : State} (hm : s.MemWf) (hL : s.status.Legal) (hr : s.status.busy = true → s.Running) :
    s.Inv := ⟨hm.1, hm.2, hL, hr⟩

/-- The invariant does not speak of the schedule. -/
theorem State.Inv.withSchedule {s : State} (hI : s.Inv) (l : List Event) : ({ s with schedule := l } : State).Inv :=
  ⟨hI.memWf, hI.oldWf, hI.status, fun hb => (hI.running hb).of_args rfl (.inl rfl)⟩

theorem engineTurn_inv {s t : State} (hI : s.Inv) (h : engineTurn s = .next t) : t.Inv := by
  refine .of_parts (engineTurn_memWf hI h) (engineTurn_legal hI.status h) fun ht => ?_
  obtain ⟨ha, hg⟩ := engineTurn_args h ht
  cases hs : s.status.busy
  · rw [engineTurn_idle hs] at h
    cases h
    exact Bool.noConfusion (hs.symm.trans ht)
  · exact (hI.running hs).of_args ha hg

theorem HostEffect.inv {s t : State} {op : HostOp} (hI : s.Inv) (h : HostEffect s op t) : t.Inv := by
  refine .of_parts (h.memWf hI) (h.legal hI.status) fun ht => ?_
  cases hs : s.status.busy
  · obtain ⟨c, n, hn, hse, rfl⟩ := h.accepted_of_busy hs ht
    exact acceptCommand_running hn hse
  · obtain ⟨ha, hg⟩ := h.args hs ht
    exact (hI.running hs).of_args ha (.inl (congrArg Engine.g hg))

theorem step_inv {s t : State} (hI : s.Inv) (h : step s = .next t) : t.Inv := by
  rcases step_cases s with ⟨-, hst⟩ | ⟨rest, -, hst⟩ | ⟨op, rest, -, hst⟩ <;> rw [hst] at h
  · exact engineTurn_inv hI h
  · exact engineTurn_inv (hI.withSchedule rest) h
  · exact (hostStep_effect h).inv (hI.withSchedule rest)

end Sys2Proof.Machine

namespace Sys2Proof

/-! ### The statements -/

open Machine

/-- Settles O32: engine turns and host operations keep the memories canonical and STATUS legal; a command that goes on
keeps its arguments, and one that starts has passed the checks. -/
theorem stepKeepsTheInvariant : Obligations.StepKeepsTheInvariant :=
  fun _ _ hI h => step_inv hI h

/-- Settles O31: memory lists nothing and no command runs. -/
theorem resetMeetsTheInvariant : Obligations.ResetMeetsTheInvariant :=
  ⟨.of_parts ⟨rfl, nofun⟩ ⟨nofun, nofun, fun _ => rfl, nofun⟩ nofun, nofun⟩

/-- Settles O34: a legal STATUS is part of the invariant. -/
theorem statusCombinationsStayLegal : Obligations.StatusCombinationsStayLegal :=
  fun _ _ hI h => (step_inv hI h).status

/-- Settles O37: the command's arguments are kept as one record, and only a group step moves `E.g`. -/
theorem runningArgumentsNeverChange : Obligations.RunningArgumentsNeverChange := by
  intro s t hI h hs ht
  have hkeeps : t.args = s.args ∧ s.Advances t := by
    rcases step_cases s with ⟨-, hst⟩ | ⟨rest, -, hst⟩ | ⟨op, rest, -, hst⟩ <;> rw [hst] at h
    · exact engineTurn_args h ht
    · exact engineTurn_args (s := { s with schedule := rest }) h ht
    · obtain ⟨ha, hg⟩ := (hostStep_effect h).args hs ht
      exact ⟨ha, .inl (congrArg Engine.g hg)⟩
  obtain ⟨ha, hg⟩ := hkeeps
  simp only [State.args, CommandArgs.mk.injEq] at ha
  obtain ⟨hsrc, hdst, hw, hh, hmode, horder, hout, hlen, hemode, heorder, -, -⟩ := ha
  unfold State.Advances at hg
  exact ⟨hsrc, hdst, hw, hh, hmode, horder, hout, hlen, hemode, heorder, by omega, by omega⟩

end Sys2Proof
end

section
/-! SUPPORT. The bytes a group step and a host store leave, and the progress of a running command; then the statement
about it (20_memory.md §6, 40_command.md §2). -/

namespace Sys2Proof.Machine

/-! ### The progress of a running command -/

/-- A group's byte depends on the bytes of the raster alone (40_command.md R105). -/
theorem groupByte_of_source {c : Conv} {m m' : Memory} {src n g : Nat} {o : BitOrder} (hn : c.group * (g + 1) ≤ n)
    (h : ∀ a, src ≤ a → a < src + 4 * n → m.read a = m'.read a) :
    groupByte c m src g o = groupByte c m' src g o := by
  refine groupByte_congr fun j hj => ?_
  have hlt : c.group * g + j < n := by rw [Nat.mul_succ] at hn; omega
  have hread : ∀ ch, ch < 3 → m.read (pixelAddr src (c.group * g + j) + ch) =
      m'.read (pixelAddr src (c.group * g + j) + ch) := fun ch hch =>
    h _ (by simp only [pixelAddr]; omega) (by simp only [pixelAddr, Config.BYTES_PER_PIXEL]; omega)
  have hr := hread 0 (by decide)
  simp only [Nat.add_zero] at hr
  simp only [readPixel, hr, hread 1 (by decide), hread 2 (by decide)]

/-- Memory after a group step: the byte of the group, and every other byte as before (40_command.md R105). -/
theorem storeGroup_read {s : State} (c : Conv) (hm : s.mem.wf = true) (a : Nat) :
    (storeGroup c s).mem.read a =
      if a = s.dstAddr.toNat + s.engine.g then groupByte c s.mem s.srcAddr.toNat s.engine.g s.engine.order
      else s.mem.read a :=
  Memory.read_write _ a _ hm

theorem State.srcRange_has_iff {s : State} {a : Nat} :
    s.srcRange.has a = true ↔ s.srcAddr.toNat ≤ a ∧ a < s.srcAddr.toNat + 4 * s.pixelCount := Region.has_iff

/-- A group step keeps the progress: the byte it adds is final, since the source bytes are those of START. -/
theorem storeGroup_progress {s : State} {c : Conv} (hI : s.Inv) (hP : s.Progress) (hb : s.status.busy = true)
    (hg : s.engine.g < s.engine.len) (hc : s.engine.mode.conv? = some c) :
    (storeGroup c s).drawGroup.Progress := by
  intro _ hd c' tr hc' htr
  obtain rfl : c = c' := Option.some.inj (hc.symm.trans hc')
  obtain ⟨hsrc, hout⟩ := hP hb hd c tr hc htr
  obtain ⟨-, -, -, -, hapart, hgroups⟩ := (hI.running hb).ranges (mode_of_conv? hc)
  refine ⟨fun a ha => ?_, fun i hi => ?_⟩
  · have hrange := State.srcRange_has_iff.1 ha
    have hne : a ≠ s.dstAddr.toNat + s.engine.g := fun h => hapart a ⟨hrange.1, hrange.2, by omega, by omega⟩
    exact ((storeGroup_read c hI.memWf a).trans (if_neg hne)).trans (hsrc a ha)
  · refine (storeGroup_read c hI.memWf _).trans ?_
    rcases Nat.lt_succ_iff_lt_or_eq.1 hi with hlt | rfl
    · exact (if_neg (show s.dstAddr.toNat + i ≠ s.dstAddr.toNat + s.engine.g by omega)).trans (hout i hlt)
    · exact (if_pos rfl).trans
        (groupByte_of_source (hgroups _ hg) fun a h1 h2 => hsrc a (State.srcRange_has_iff.2 ⟨h1, h2⟩))

theorem engineTurn_progress {s t : State} (hI : s.Inv) (hP : s.Progress) (h : engineTurn s = .next t) :
    t.Progress := by
  rcases engineTurn_next h with ⟨-, rfl⟩ | ⟨-, -, -, rfl⟩ | ⟨hb, -, hg, c, hc, -, ⟨-, -, rfl⟩ | ⟨-, rfl⟩ | ⟨-, rfl⟩⟩
  · exact hP
  · intro ht
    rw [completeStep_status] at ht
    cases ht
  · exact storeGroup_progress hI hP hb hg hc
  · exact nofun
  · exact hP

/-- The newest unobserved command of a BUSY engine is the one that runs. -/
theorem State.Running.head_transfer {s : State} {tr : Transfer} (h : s.Running) (htr : s.unsynced.head? = some tr) :
    tr.dst = s.dstAddr.toNat ∧ tr.len = s.engine.len := by
  have ht := h.transfer
  rw [htr] at ht
  exact Prod.mk.inj (Option.some.inj ht)

theorem Transfer.has_iff {tr : Transfer} {a : Nat} : tr.has a = true ↔ tr.dst ≤ a ∧ a < tr.dst + tr.len := by
  rw [Transfer.has, Bool.and_eq_true, decide_eq_true_eq, decide_eq_true_eq]

theorem State.inSource_iff {s : State} {a : Nat} : s.inSource a = true ↔
    s.status.busy = true ∧ s.srcAddr.toNat ≤ a ∧ a < s.srcAddr.toNat + 4 * s.pixelCount := by
  rw [State.inSource, Bool.and_eq_true, State.srcRange_has_iff]

theorem State.inDest_iff {s : State} {a : Nat} : s.inDest a = true ↔ s.status.busy = true ∧ s.IsDest a := by
  rw [State.inDest, Bool.and_eq_true, Region.has_iff]; rfl

/-- A host store outside the running command's ranges changes no byte the progress speaks of (20_memory.md R67). -/
theorem storeByte_progress {s : State} {a : Nat} {v : Byte} (hI : s.Inv) (hP : s.Progress) :
    (storeByte a v s).Progress := by
  intro hb hd c tr hc htr
  simp only [storeByte_disturbed, Bool.or_eq_false_iff] at hd
  obtain ⟨⟨hd, hsource⟩, hdest⟩ := hd
  rw [storeByte_unsynced, List.head?_map, Option.map_eq_some_iff] at htr
  obtain ⟨tr, htr, rfl⟩ := htr
  have hin := (hI.running hb).inside
  obtain ⟨hdst, hlen⟩ := (hI.running hb).head_transfer htr
  have hout : ¬s.IsDest a := fun h => Bool.noConfusion (hdest.symm.trans (State.inDest_iff.2 ⟨hb, h⟩))
  have hsettle : tr.settle a v = tr :=
    if_neg fun h => hout (by rw [Transfer.has_iff, hdst, hlen] at h; exact h)
  obtain ⟨hsrc, hbytes⟩ := hP hb hd c tr hc htr
  rw [hsettle]
  refine ⟨fun b hbs => ?_, fun i hi => ?_⟩
  · have hne : b ≠ a := by
      rintro rfl
      exact Bool.noConfusion (hsource.symm.trans (State.inSource_iff.2 ⟨hb, State.srcRange_has_iff.1 hbs⟩))
    exact (Memory.read_write_other v hI.memWf hne).trans (hsrc b hbs)
  · have hne : s.dstAddr.toNat + i ≠ a := by
      rintro rfl
      have hi : i < s.engine.g := hi
      exact hout ⟨by omega, by omega⟩
    exact (Memory.read_write_other v hI.memWf hne).trans (hbytes i hi)

theorem HostEffect.progress {s t : State} {op : HostOp} (hI : s.Inv) (hP : s.Progress) (h : HostEffect s op t) :
    t.Progress := by
  cases h with
  | ignored | ieStored | acked => exact hP
  | configured _ _ hb => exact fun ht => Bool.noConfusion (hb.symm.trans ht)
  | argStored _ r v hb => exact fun ht => Bool.noConfusion (hb.symm.trans (by simpa using ht))
  | rejected | reset => exact nofun
  | accepted _ c n =>
    intro _ _ _ tr _ htr
    cases htr
    exact ⟨fun _ _ => rfl, fun i hi => absurd hi (Nat.not_lt_zero i)⟩
  | read _ r =>
    intro ht
    have hs : s.status.busy = true := by simpa [readRegOp] using ht
    rw [readRegOp, noteRead_busy r hs]
    exact hP hs
  | polled _ r off mask val =>
    intro ht
    have hs : s.status.busy = true := by simpa using ht
    rw [pollOp, noteRead_busy r hs]
    split <;> exact hP hs
  | stored => exact storeByte_progress hI hP
  | loaded a => rw [loadByte_eq]; exact hP

theorem step_progress {s t : State} (hI : s.Inv) (hP : s.Progress) (h : step s = .next t) : t.Progress := by
  rcases step_cases s with ⟨-, hst⟩ | ⟨rest, -, hst⟩ | ⟨op, rest, -, hst⟩ <;> rw [hst] at h
  · exact engineTurn_progress hI hP h
  · exact engineTurn_progress (hI.withSchedule rest) hP h
  · exact (hostStep_effect h).progress (hI.withSchedule rest) hP

end Sys2Proof.Machine

namespace Sys2Proof

/-! ### The statement -/

open Machine

/-- Settles O33: a group step adds one final byte, and a host store that could change a byte of the progress disturbs
the command. -/
theorem stepKeepsTheProgress : Obligations.StepKeepsTheProgress :=
  fun _ _ hI hP h => step_progress hI hP h

end Sys2Proof
end

section
/-! SUPPORT. Why a step faults or refuses, and which steps raise DONE and ERR; then the statements about them
(10_state.md §4, 60_exceptions.md). -/

namespace Sys2Proof.Machine

/-! ### Faults and refusals -/

/-- The engine of a state that meets the invariant never faults (log entry 15). -/
theorem engineTurn_no_fault {s : State} {f : Fault} (hI : s.Inv) : engineTurn s ≠ .fault f := by
  intro h
  by_cases hturn : s.status.busy = true ∧ s.hung = false ∧ s.engine.g < s.engine.len
  · obtain ⟨hb, hh, hg⟩ := hturn
    obtain ⟨c, hm⟩ := (hI.running hb).conv
    have hspace := (hI.running hb).groupInSpace hm hg
    rw [engineTurn_group hb hh hg hm] at h
    rcases groupStepOf_cases c s with ⟨hs, -⟩ | ⟨-, ⟨-, -, he⟩ | ⟨-, he⟩ | ⟨-, he⟩⟩
    · exact Bool.noConfusion (hspace.symm.trans hs)
    all_goals rw [he] at h; cases h
  · unfold engineTurn at h
    split at h
    next hbh =>
      obtain ⟨hb, hh⟩ : s.status.busy = true ∧ s.hung = false := by simpa using hbh
      rw [if_neg fun hg => hturn ⟨hb, hh, hg⟩] at h
      split at h <;> cases h
    · cases h

theorem hostStep_regWrite_refused {off bytes : Nat} {v : Word} {s : State} {r : Refusal}
    (h : hostStep (.regWrite off bytes v) s = .refused r) :
    (r = .notAlignedWordAccess ∧ (bytes ≠ 4 ∨ off % 4 ≠ 0)) ∨ (r = .outsideWindow ∧ 32 ≤ off) ∨
      (r = .sideEffectMemory ∧ bytes = 4 ∧ off = 0 ∧ s.StartTouchesSideEffects v) := by
  simp only [hostStep] at h
  split at h
  next q hq =>
    obtain ⟨rfl, rfl, hs⟩ := writeReg_refused h
    obtain ⟨hbytes, hoff⟩ := hostReg_ok hq
    exact .inr (.inr ⟨rfl, hbytes, by simpa using hoff, hs⟩)
  next e he =>
    cases h
    rcases hostReg_error he with h | h
    · exact .inl h
    · exact .inr (.inl h)

theorem hostStep_regRead_refused {off bytes : Nat} {s : State} {r : Refusal}
    (h : hostStep (.regRead off bytes) s = .refused r) :
    (r = .notAlignedWordAccess ∧ (bytes ≠ 4 ∨ off % 4 ≠ 0)) ∨ (r = .outsideWindow ∧ 32 ≤ off) := by
  simp only [hostStep] at h
  split at h
  · cases h
  next e he => cases h; exact hostReg_error he

theorem hostStep_poll_refused {off : Nat} {mask val : Word} {s : State} {r : Refusal}
    (h : hostStep (.poll off mask val) s = .refused r) :
    (r = .notAlignedWordAccess ∧ off % 4 ≠ 0) ∨ (r = .outsideWindow ∧ 32 ≤ off) := by
  simp only [hostStep] at h
  split at h
  · cases h
  next e he => cases h; simpa using hostReg_error he

theorem hostStep_byte_refused {op : HostOp} {a : Word} {s : State} {r : Refusal}
    (hop : (∃ v, op = .sb a v) ∨ op = .lb a) (h : hostStep op s = .refused r) :
    (r = .notAlignedWordAccess ∧ s.platform.window.has a.toNat = true) ∨
      (r = .hostDeviceAccess ∧ ∃ d ∈ s.platform.devices, d.has a.toNat = true) := by
  rcases hop with ⟨v, rfl⟩ | rfl <;> simp only [hostStep] at h <;> split at h
  next e he => cases h; exact byteAccessRefusal_some he
  · cases h
  next e he => cases h; exact byteAccessRefusal_some he
  · cases h

/-- The argument registers are at offsets 0x08 to 0x14 (10_state.md R23). -/
theorem hostReg_isArg {off bytes : Nat} {r : Reg} (h : hostReg off bytes = .ok r) (ha : r.isArg = true) :
    0x08 ≤ off ∧ off ≤ 0x14 := by
  obtain ⟨-, h⟩ := hostReg_ok h
  cases r <;> simp [Reg.isArg] at ha <;> simp at h <;> omega

theorem hostStep_secondHostWrite_refused {off : Nat} {v : Word} {s : State} {r : Refusal}
    (h : hostStep (.secondHostWrite off v) s = .refused r) :
    (r = .notAlignedWordAccess ∧ off % 4 ≠ 0) ∨ (r = .outsideWindow ∧ 32 ≤ off) ∨
      (r = .interleavedHosts ∧ 0x08 ≤ off ∧ off ≤ 0x14 ∧ s.status.busy = false) ∨
      (r = .sideEffectMemory ∧ off = 0 ∧ s.StartTouchesSideEffects v) := by
  simp only [hostStep] at h
  split at h
  next q hq =>
    split at h
    next hi =>
      cases h
      simp only [Bool.and_eq_true, Bool.not_eq_true'] at hi
      obtain ⟨hlo, hhi⟩ := hostReg_isArg hq hi.1
      exact .inr (.inr (.inl ⟨rfl, hlo, hhi, hi.2⟩))
    next =>
      obtain ⟨rfl, rfl, hs⟩ := writeReg_refused h
      exact .inr (.inr (.inr ⟨rfl, by simpa using (hostReg_ok hq).2, hs⟩))
  next e he =>
    cases h
    rcases hostReg_error he with h | h
    · exact .inl (by simpa using h)
    · exact .inr (.inl h)

/-! ### The end of a command -/

/-- DONE rises at the completion step alone (40_command.md R106). -/
theorem engineTurn_done {s t : State} (h : engineTurn s = .next t) (hs : s.status.done = false)
    (ht : t.status.done = true) :
    s.status.busy = true ∧ s.hung = false ∧ s.engine.g = s.engine.len ∧ t.status.busy = false := by
  rcases engineTurn_next h with ⟨-, rfl⟩ | ⟨hb, hh, hg, rfl⟩ | ⟨-, -, -, c, -, -, ⟨-, -, rfl⟩ | ⟨-, rfl⟩ | ⟨-, rfl⟩⟩
  · exact Bool.noConfusion (hs.symm.trans ht)
  · exact ⟨hb, hh, hg, by rw [completeStep_status]; rfl⟩
  all_goals exact Bool.noConfusion (hs.symm.trans ht)

/-- An engine turn raises ERR at a bus error of a group step alone (60_exceptions.md R182). -/
theorem engineTurn_err {s t : State} (h : engineTurn s = .next t) (hs : s.status.err = false)
    (ht : t.status.err = true) :
    t.status.errcode = 5#4 ∧ s.status.busy = true ∧ s.engine.g < s.engine.len ∧ t.status.busy = false := by
  rcases engineTurn_next h with ⟨-, rfl⟩ | ⟨-, -, -, rfl⟩ | ⟨hb, -, hg, c, -, -, ⟨-, -, rfl⟩ | ⟨-, rfl⟩ | ⟨-, rfl⟩⟩
  · exact Bool.noConfusion (hs.symm.trans ht)
  · rw [completeStep_status] at ht
    exact Bool.noConfusion (hs.symm.trans ht)
  · exact Bool.noConfusion (hs.symm.trans ht)
  · exact ⟨rfl, hb, hg, rfl⟩
  · exact Bool.noConfusion (hs.symm.trans ht)

/-- No host operation raises DONE (10_state.md R27). -/
theorem HostEffect.done {s t : State} {op : HostOp} (h : HostEffect s op t) (ht : t.status.done = true) :
    s.status.done = true := by
  cases h with
  | ignored | ieStored | configured | stored => exact ht
  | rejected | accepted | reset => cases ht
  | acked _ v => rw [ackStatus_done, Bool.and_eq_true] at ht; exact ht.1
  | argStored | polled | loaded => simpa using ht
  | read => simpa [readRegOp] using ht

/-- A host operation raises ERR at a rejected START alone (60_exceptions.md R181). -/
theorem HostEffect.err {s t : State} {op : HostOp} (h : HostEffect s op t) (hs : s.status.err = false)
    (ht : t.status.err = true) :
    ∃ v c e, op.WritesCtrl v ∧ v.getLsbD 0 = true ∧ s.status.busy = false ∧
      validate c.mode s.pixelCount s.srcAddr.toNat s.dstAddr.toNat = .error e ∧
      t = rejectCommand e ((s.setCtrl c).setStatus s.status.cleared) := by
  cases h with
  | rejected _ v c e hop hv hb he => exact ⟨v, c, e, hop, hv, hb, he, rfl⟩
  | accepted | reset => cases ht
  | ignored | ieStored | configured | stored => exact Bool.noConfusion (hs.symm.trans ht)
  | acked _ v => rw [ackStatus_err, hs] at ht; cases ht
  | argStored | polled | loaded => simp [hs] at ht
  | read => simp [readRegOp, hs] at ht

/-- The code of a rejection is 1 to 4 (60_exceptions.md R180, R181). -/
theorem errcode_le_four {e : CmdError} (he : e ≠ .bus) : e.code.toNat ≤ 4 := by
  cases e <;> simp [CmdError.code] at he ⊢

end Sys2Proof.Machine

namespace Sys2Proof

/-! ### The statements -/

open Machine

/-- Settles O35: a running command's groups lie inside the address space and its mode selects a conversion. -/
theorem noStepFaults : Obligations.NoStepFaults := by
  intro s f hI h
  rcases step_cases s with ⟨-, hst⟩ | ⟨rest, -, hst⟩ | ⟨op, rest, -, hst⟩ <;> rw [hst] at h
  · exact engineTurn_no_fault hI h
  · exact engineTurn_no_fault (hI.withSchedule rest) h
  · exact hostStep_no_fault h

/-- Settles O36: the engine never refuses, and each host operation refuses for its own reasons. -/
theorem onlyMeaninglessHostAccessesRefuse : Obligations.OnlyMeaninglessHostAccessesRefuse := by
  intro s r h
  rcases step_cases s with ⟨-, hst⟩ | ⟨rest, -, hst⟩ | ⟨op, rest, hsch, hst⟩ <;> rw [hst] at h
  · exact absurd h engineTurn_no_refusal
  · exact absurd h engineTurn_no_refusal
  · refine ⟨op, rest, hsch, ?_⟩
    cases op with
    | regWrite off bytes v =>
      exact .inl ⟨off, bytes, v, rfl, hostStep_regWrite_refused (s := { s with schedule := rest }) h⟩
    | regRead off bytes => exact .inr (.inl ⟨off, bytes, rfl, hostStep_regRead_refused h⟩)
    | poll off mask val => exact .inr (.inr (.inl ⟨off, mask, val, rfl, hostStep_poll_refused h⟩))
    | sb a v =>
      exact .inr (.inr (.inr (.inl ⟨a, .inl ⟨v, rfl⟩,
        hostStep_byte_refused (s := { s with schedule := rest }) (.inl ⟨v, rfl⟩) h⟩)))
    | lb a =>
      exact .inr (.inr (.inr (.inl ⟨a, .inr rfl,
        hostStep_byte_refused (s := { s with schedule := rest }) (.inr rfl) h⟩)))
    | reset => cases h
    | secondHostWrite off v =>
      exact .inr (.inr (.inr (.inr ⟨off, v, rfl,
        hostStep_secondHostWrite_refused (s := { s with schedule := rest }) h⟩)))

/-- Settles O38: of all next states, the completion step raises DONE, and a bus error and a rejected START raise ERR. -/
theorem doneAndErrRiseOnlyAtACommandsEnd : Obligations.DoneAndErrRiseOnlyAtACommandsEnd := by
  intro s t hI h
  rcases step_cases s with ⟨hsch, hst⟩ | ⟨rest, hsch, hst⟩ | ⟨op, rest, hsch, hst⟩ <;> rw [hst] at h
  · exact ⟨fun hs ht => ⟨.inl hsch, engineTurn_done h hs ht⟩, fun hs ht => .inl ⟨.inl hsch, engineTurn_err h hs ht⟩⟩
  · exact ⟨fun hs ht => ⟨.inr ⟨rest, hsch⟩, engineTurn_done (s := { s with schedule := rest }) h hs ht⟩,
      fun hs ht => .inl ⟨.inr ⟨rest, hsch⟩, engineTurn_err (s := { s with schedule := rest }) h hs ht⟩⟩
  · refine ⟨fun hs ht => ?_, fun hs ht => .inr ?_⟩
    · exact Bool.noConfusion (hs.symm.trans ((hostStep_effect h).done ht))
    · obtain ⟨v, c, e, hop, hv, hb, he, rfl⟩ := (hostStep_effect h).err hs ht
      have hne : e ≠ .bus := by rintro rfl; exact validate_ne_bus _ _ _ _ he
      refine ⟨⟨v, rest, ?_, hv⟩, (errcode_bounds e).1, errcode_le_four hne, hb, rfl, rfl⟩
      rw [hsch]
      rcases hop with rfl | rfl
      · exact .inl rfl
      · exact .inr rfl

end Sys2Proof
end

section
/-! SUPPORT. The outcomes of a START whose arguments fit or touch side-effect memory, writes of the argument registers,
and reads and polls of STATUS; then the statements about CTRL writes, the register window and host programs
(10_state.md, 30_encoding.md, 40_command.md). -/

namespace Sys2Proof

namespace Machine

/-! ### START while idle -/

theorem startCommand_refuse {s : State} {n : Nat} (hv : s.validated = .ok n) (ht : s.touchesSideEffects n = true) :
    startCommand s = .refused .sideEffectMemory := by
  simp only [startCommand_eq, hv, ht]; rfl

/-- Every pixel gives at least one bit of output, so only an empty raster has an empty output (40_command.md R102). -/
theorem outputLength_pos (c : Conv) {n : Nat} (hn : n % 8 = 0) (hpos : 0 < n) : 0 < n * c.bpp / 8 := by
  cases c <;> simp only [Conv.bpp] <;> omega

/-- Arguments that fit pass the checks (40_command.md R103). -/
theorem State.Fits.validate {s : State} {c : Conv} (h : s.Fits c) :
    validate c.mode s.pixelCount s.srcAddr.toNat s.dstAddr.toNat = .ok (s.pixelCount * c.bpp / 8) := by
  have hdim := h.dim
  have hsrc := h.src
  have hdst := h.dst
  rw [validate_conv, if_neg (not_not.2 hdim), if_neg (by omega), if_neg]
  rintro ⟨hn, h1, h2⟩
  have hlen := outputLength_pos c hdim hn
  have := h.apart (max s.srcAddr.toNat s.dstAddr.toNat)
  omega

/-- Arguments that fit lie on ordinary memory (20_memory.md R56). -/
theorem State.Fits.touchesSideEffects {s : State} {c : Conv} (h : s.Fits c) :
    s.touchesSideEffects (s.pixelCount * c.bpp / 8) = false := by
  rw [← Bool.not_eq_true, touchesSideEffects_iff]
  rintro ⟨r, hr, a, ha, hs | hd⟩
  · exact (h.ordinary r hr a ha).1 hs
  · exact (h.ordinary r hr a ha).2 hd

/-- The state an accepted START of a conversion leaves (40_command.md R100). -/
def State.started (s : State) (c : Conv) (o : BitOrder) (ie : Bool) : State :=
  { s with
    ctrl := { mode := c.mode, order := o, ie := ie }
    status := { busy := true, done := false, err := false, errcode := 0#4 }
    outlen := BitVec.ofNat 32 (s.pixelCount * c.bpp / 8)
    engine := { g := 0, len := s.pixelCount * c.bpp / 8, mode := c.mode, order := o }
    hung := false
    disturbed := false
    unsynced := { dst := s.dstAddr.toNat, len := s.pixelCount * c.bpp / 8, old := s.mem } :: s.unsynced }

theorem exec_convInstr_accept {s : State} {c : Conv} (o : BitOrder) (ie : Bool) (hb : s.status.busy = false)
    (h : s.Fits c) : exec (convInstr c o ie) s = .next (s.started c o ie) := by
  rw [exec_convInstr, writeCtrl_start _ _ _ hb,
    startCommand_accept (s := s.setCtrl { mode := c.mode, order := o, ie := ie }) h.validate h.touchesSideEffects]
  rfl

/-! ### STATUS -/

/-- The acknowledgement clears what its bits name (10_state.md R28). -/
theorem Status.acked_eq (v : Word) (st : Status) :
    st.acked v =
      { busy := st.busy
        done := st.done && !v.getLsbD 1
        err := st.err && !v.getLsbD 2
        errcode := if v.getLsbD 2 = true then 0#4 else st.errcode } := by
  unfold Status.acked
  cases v.getLsbD 1 <;> cases v.getLsbD 2 <;> simp

/-- While BUSY there is no report to acknowledge (10_state.md R28). -/
theorem Status.Legal.acked_busy {st : Status} (hL : st.Legal) (hb : st.busy = true) (v : Word) : st.acked v = st := by
  obtain ⟨hdone, herr, hcode⟩ := hL.1 hb
  obtain ⟨busy, done, err, code⟩ := st
  subst hdone herr hcode
  simp [Status.acked_eq]

/-- A read of STATUS that shows BUSY = 0 makes every engine write visible (20_memory.md R60). -/
theorem noteRead_of_status (s : State) :
    noteRead .status s = { s with unsynced := if s.status.busy = true then s.unsynced else [] } := by
  cases hb : s.status.busy
  · rw [noteRead, if_pos ⟨rfl, hb⟩]; rfl
  · rw [noteRead_busy _ hb]; rfl

theorem hostStep_poll {off : Nat} {r : Reg} (h : hostReg off 4 = .ok r) (mask val : Word) (s : State) :
    hostStep (.poll off mask val) s = .next (pollOp r off mask val s) := by
  simp only [hostStep, h]

theorem pollOp_of_match {r : Reg} {mask val : Word} {s : State} (off : Nat) (h : s.readReg r &&& mask = val) :
    pollOp r off mask val s = noteRead r s := if_pos h

theorem pollOp_of_mismatch {r : Reg} {mask val : Word} {s : State} (off : Nat) (h : s.readReg r &&& mask ≠ val) :
    pollOp r off mask val s =
      { noteRead r s with schedule := .engine :: .host (.poll off mask val) :: s.schedule } := if_neg h

/-! ### The argument registers -/

theorem writeReg_arg {r : Reg} (v : Word) (s : State) (ha : r.isArg = true) :
    writeReg r v s = .next (s.writeArg r v) := by
  cases r with
  | srcAddr | dstAddr | width | height => rfl
  | ctrl | status | outlen | rsvd => cases ha

/-- The four argument registers stand at 0x08, 0x0C, 0x10 and 0x14 (10_state.md R23). -/
theorem hostReg_arg {off : Nat} (h : off = 0x08 ∨ off = 0x0C ∨ off = 0x10 ∨ off = 0x14) :
    ∃ r, hostReg off 4 = .ok r ∧ r.isArg = true := by
  rcases h with rfl | rfl | rfl | rfl
  · exact ⟨.srcAddr, rfl, rfl⟩
  · exact ⟨.dstAddr, rfl, rfl⟩
  · exact ⟨.width, rfl, rfl⟩
  · exact ⟨.height, rfl, rfl⟩

theorem hostStep_writeArg_idle {off : Nat} {r : Reg} {s : State} (v : Word) (h : hostReg off 4 = .ok r)
    (ha : r.isArg = true) (hb : s.status.busy = false) : hostStep (.regWrite off 4 v) s = .next (s.setArg r v) := by
  rw [hostStep_regWrite h, writeReg_arg v s ha, writeArg_idle r v hb]

theorem hostStep_secondHostWrite {off : Nat} {r : Reg} (h : hostReg off 4 = .ok r) (v : Word) (s : State) :
    hostStep (.secondHostWrite off v) s =
      if r.isArg && !s.status.busy then .refused .interleavedHosts else writeReg r v s := by
  simp only [hostStep, h]

/-- While BUSY a second host writes as the first does (60_exceptions.md R189). -/
theorem hostStep_secondHostWrite_busy {off : Nat} {r : Reg} {s : State} (v : Word) (h : hostReg off 4 = .ok r)
    (hb : s.status.busy = true) : hostStep (.secondHostWrite off v) s = writeReg r v s := by
  simp [hostStep_secondHostWrite h, hb]

/-! ### Host programs -/

theorem step_writeArg_idle {off : Nat} {r : Reg} {v : Word} {s : State} {rest : List Event}
    (hs : s.schedule = writeWord off v :: rest) (h : hostReg off 4 = .ok r) (ha : r.isArg = true)
    (hb : s.status.busy = false) : step s = .next (({ s with schedule := rest } : State).setArg r v) := by
  rw [step_host hs]
  exact hostStep_writeArg_idle v h ha hb

/-- The assembler's instruction of a form is that of its conversion and its suffixes (30_encoding.md R76). -/
theorem CmdForm.instr_eq (f : CmdForm) :
    f.instr = convInstr f.conv (if f.lsb then .lsbFirst else .msbFirst) f.ie := by
  obtain ⟨c, lsb, ie⟩ := f
  cases c <;> cases lsb <;> rfl

end Machine

/-! ### The statements -/

open Machine

/-- Settles O6: CTRL.SET is a CTRL write without START. -/
theorem ctrlSetStoresItsFieldsAndNothingElse : Obligations.CtrlSetStoresItsFieldsAndNothingElse := by
  intro s m o ie hb
  rw [exec_eq_writeCtrl]
  exact writeCtrl_configure m o ie hb

/-- Settles O7: the first check rejects the reserved MODE, whatever the arguments. -/
theorem reservedModeIsRejectedWithErrMode : Obligations.ReservedModeIsRejectedWithErrMode := by
  intro s o ie hb
  rw [exec_reject (i := .reservedMode o ie) hb rfl (validate_reserved _ _ _)]; rfl

/-- Settles O8: every instruction is a CTRL write, which while BUSY stores IE alone. -/
theorem everyInstructionWhileBusyWritesIeAlone : Obligations.EveryInstructionWhileBusyWritesIeAlone := by
  intro i s hb
  rw [exec_eq_writeCtrl]
  exact writeCtrl_busy _ _ _ _ hb

/-- Settles O9: arguments that fit pass the checks and lie on ordinary memory, so the command is accepted. -/
theorem conversionStartCompletes : Obligations.ConversionStartCompletes :=
  fun _ _ o ie hb h => exec_convInstr_accept o ie hb h

/-- Settles O12: the command passes the checks and touches a byte with side effects. -/
theorem startOnSideEffectMemoryIsRefused : Obligations.StartOnSideEffectMemoryIsRefused := by
  intro c s o ie n hb hv ht
  rw [exec_convInstr, writeCtrl_start _ _ _ hb]
  exact startCommand_refuse (s := s.setCtrl _) hv (touchesSideEffects_iff.2 ht)

/-- Settles O44: the write is the acknowledgement, which has nothing to clear while BUSY; the read notes BUSY = 0. -/
theorem statusWriteAndReadFollowTheRule : Obligations.StatusWriteAndReadFollowTheRule := by
  refine fun s v => ⟨?_, fun hI hb => ?_, ?_⟩
  · rw [hostStep_regWrite_status, ackStatus, Status.acked_eq]; rfl
  · rw [hostStep_regWrite_status, ackStatus, hI.status.acked_busy hb]; rfl
  · rw [hostStep_regRead (r := .status) rfl, readRegOp, noteRead_of_status]; rfl

/-- Settles O46: while idle the write stores, while BUSY it is ignored; the reads show the register. -/
theorem argumentRegistersAreStorageWhileIdle : Obligations.ArgumentRegistersAreStorageWhileIdle := by
  refine fun s v => ⟨fun hb => ⟨?_, ?_, ?_, ?_⟩, fun hb off hoff => ?_, ?_, ?_, ?_, ?_, ?_⟩
  · exact hostStep_writeArg_idle (r := .srcAddr) v rfl rfl hb
  · exact hostStep_writeArg_idle (r := .dstAddr) v rfl rfl hb
  · exact hostStep_writeArg_idle (r := .width) v rfl rfl hb
  · exact hostStep_writeArg_idle (r := .height) v rfl rfl hb
  · obtain ⟨r, hr, ha⟩ := hostReg_arg hoff
    rw [hostStep_regWrite hr, writeReg_arg v s ha, writeArg_busy r v hb]
  · rw [hostStep_regRead (r := .srcAddr) rfl, readRegOp_of_ne_status (by decide)]; rfl
  · rw [hostStep_regRead (r := .dstAddr) rfl, readRegOp_of_ne_status (by decide)]; rfl
  · rw [hostStep_regRead (r := .width) rfl, readRegOp_of_ne_status (by decide)]; rfl
  · rw [hostStep_regRead (r := .height) rfl, readRegOp_of_ne_status (by decide)]; rfl
  · rw [hostStep_regRead (r := .outlen) rfl, readRegOp_of_ne_status (by decide)]; rfl

/-- Settles O48: such an access reaches no register. -/
theorem otherWidthsAndAlignmentsAreRefused : Obligations.OtherWidthsAndAlignmentsAreRefused := by
  intro s off bytes v h
  simp only [hostStep, hostReg_misaligned h, and_self]

/-- Settles O49: idle, the write of an argument register is the one refused; while BUSY it is any host's write. -/
theorem secondHostMustSerialise : Obligations.SecondHostMustSerialise := by
  refine fun s v => ⟨fun off hoff => ?_, fun hb => ?_⟩
  · obtain ⟨r, hr, ha⟩ := hostReg_arg hoff
    refine ⟨fun hb => ?_, fun hb => ?_⟩
    · rw [hostStep_secondHostWrite hr, ha, hb]; rfl
    · rw [hostStep_secondHostWrite_busy v hr hb, writeReg_arg v s ha, writeArg_busy r v hb]
  · rw [hostStep_secondHostWrite_busy (r := .ctrl) v rfl hb, ← hostStep_regWrite (off := 0x00) rfl,
      hostStep_regWrite_ctrl, writeCtrl_busy _ _ _ _ hb]
    rfl

/-- Settles O51: the fields of the reset state as the model writes them. -/
theorem resetStateIsAllZero : Obligations.ResetStateIsAllZero :=
  ⟨rfl, rfl, rfl, rfl, rfl, rfl, rfl, rfl, rfl, rfl, rfl, rfl, rfl, rfl, rfl, rfl, rfl, State.reset_readReg⟩

/-- Settles O58: the two outcomes of one round of the poll, on the read that STATUS gives. -/
theorem pollRepeatsUntilTheValueMatches : Obligations.PollRepeatsUntilTheValueMatches := by
  refine fun s mask val => ⟨fun h => ?_, fun h => ?_⟩
  · rw [hostStep_poll (r := .status) rfl, pollOp_of_match (r := .status) _ h, noteRead_of_status]
  · rw [hostStep_poll (r := .status) rfl, pollOp_of_mismatch (r := .status) _ h, noteRead_of_status]

/-- Settles O59: four writes of argument registers while idle leave the CTRL write at the head of the schedule. -/
theorem convPseudoInstructionProgramsTheBlock : Obligations.ConvPseudoInstructionProgramsTheBlock := by
  intro s f src dst w h hb hs
  rw [← CmdForm.instr_eq]
  calc Host.Core.run Sys2Proof.core 4 s
    _ = _ := run_succ_next (step_writeArg_idle (r := .srcAddr) hs rfl rfl hb)
    _ = _ := run_succ_next (step_writeArg_idle (off := 0x0C) (r := .dstAddr) rfl rfl rfl hb)
    _ = _ := run_succ_next (step_writeArg_idle (off := 0x10) (r := .width) rfl rfl rfl hb)
    _ = _ := run_succ_next (step_writeArg_idle (off := 0x14) (r := .height) rfl rfl rfl hb)

end Sys2Proof
end

section
/-! SUPPORT. The fields of a packed output byte, pixel by pixel, in either bit order; then the statements about the
output bytes (41_mono.md, 43_gray2.md). -/

namespace Sys2Proof

namespace Machine

/-! ### The values packed -/

theorem black_lt_two (p : Pixel) : (black p).toNat < 2 := by
  unfold black; split <;> decide

/-- A pixel's bit is 1 exactly when it is black (41_mono.md R121). -/
theorem black_eq_one_iff (p : Pixel) :
    (black p).toNat = 1 ↔ p.r.toNat < 150 ∨ p.g.toNat < 150 ∨ p.b.toNat < 150 := by
  by_cases hdark : p.r.toNat < 150 ∨ p.g.toNat < 150 ∨ p.b.toNat < 150
  · rw [black_of_lt hdark]
    exact iff_of_true rfl hdark
  · rw [black_of_le (by omega)]
    exact iff_of_false (by decide) hdark

/-- The level of a gray value (43_gray2.md R161). -/
theorem toNat_quant2 (y : Byte) :
    (quant2 y).toNat = if 192 < y.toNat then 3 else if 128 < y.toNat then 2 else if 64 < y.toNat then 1 else 0 := by
  unfold quant2
  split
  · rfl
  split
  · rfl
  split <;> rfl

theorem quant2_lt_four (y : Byte) : (quant2 y).toNat < 4 := by
  rw [toNat_quant2]
  split_ifs <;> decide

/-! ### The fields of an output byte -/

/-- The place of value `j` of width `w` in a byte, counted from bit 0 (40_command.md R107). -/
def fieldShift (o : BitOrder) (w j : Nat) : Nat := if o = .msbFirst then 8 - w * (j + 1) else w * j

/-- A group's values, one for each of its pixels, in the fields of the packed byte. -/
theorem pack_pixels_field {w k j : Nat} (o : BitOrder) (f : Nat → Byte) (hw : w = 1 ∨ w = 2 ∨ w = 8) (hk : k = 8 / w)
    (hf : ∀ i, (f i).toNat < 2 ^ w) (hj : j < k) :
    (pack w o ((List.range k).map f)).toNat / 2 ^ fieldShift o w j % 2 ^ w = (f j).toNat := by
  have hvals : ∀ v ∈ (List.range k).map f, v.toNat < 2 ^ w := List.forall_mem_map.2 fun i _ => hf i
  obtain ⟨hmsb, hlsb⟩ :=
    packPlacesEveryValue w ((List.range k).map f) hw (by simpa using hk) hvals j (by simpa using hj)
  rw [List.getElem_map, List.getElem_range] at hmsb hlsb
  cases o
  · exact hmsb
  · exact hlsb

/-- Pixel `8g + j` is one bit of output byte `g` of CONV.MONO (41_mono.md R120). -/
theorem groupByteMono_getLsbD {j : Nat} (m : Memory) (src g : Nat) (o : BitOrder) (hj : j < 8) :
    (groupByteMono m src g o).getLsbD (fieldShift o 1 j) =
      decide ((m.read (src + 4 * (8 * g + j))).toNat < 150 ∨ (m.read (src + 4 * (8 * g + j) + 1)).toNat < 150 ∨
        (m.read (src + 4 * (8 * g + j) + 2)).toNat < 150) := by
  have hfield : (groupByteMono m src g o).toNat / 2 ^ fieldShift o 1 j % 2 = _ :=
    pack_pixels_field o (fun j => black (readPixel m src (8 * g + j))) (.inl rfl) rfl (fun _ => black_lt_two _) hj
  rw [BitVec.getLsbD, Nat.testBit_eq_decide_div_mod_eq, hfield]
  exact decide_eq_decide.2 (black_eq_one_iff _)

/-- The gray value of pixel `i` (42_gray8.md R141). -/
theorem toNat_gray8_readPixel (m : Memory) (src i : Nat) :
    (gray8 (readPixel m src i)).toNat =
      ((m.read (src + 4 * i)).toNat + (m.read (src + 4 * i + 1)).toNat + (m.read (src + 4 * i + 2)).toNat + 1) / 3 :=
  toNat_gray8 _

/-- Pixel `4g + j` is one field of two bits of output byte `g` of CONV.GRAY2 (43_gray2.md R160). -/
theorem groupByteGray2_field {j : Nat} (m : Memory) (src g : Nat) (o : BitOrder) (hj : j < 4) :
    (groupByteGray2 m src g o).toNat / 2 ^ fieldShift o 2 j % 4 =
      (quant2 (gray8 (readPixel m src (4 * g + j)))).toNat :=
  pack_pixels_field o (fun j => quant2 (gray8 (readPixel m src (4 * g + j)))) (.inr (.inl rfl)) rfl
    (fun _ => quant2_lt_four _) hj

/-- Output byte `g` of CONV.GRAY8 is the gray value of pixel `g` (42_gray8.md R140). -/
theorem groupByteGray8_eq (m : Memory) (src g : Nat) : groupByteGray8 m src g = gray8 (readPixel m src g) := by
  rw [groupByteGray8, Nat.one_mul]

/-- Where a bit and a field of two bits stand, from the last pixel of the byte down or from bit 0 up. -/
theorem shift_one (o : BitOrder) (j : Nat) : fieldShift o 1 j = if o = .msbFirst then 7 - j else j := by
  unfold fieldShift; split <;> omega

theorem shift_two (o : BitOrder) (j : Nat) : fieldShift o 2 j = if o = .msbFirst then 6 - 2 * j else 2 * j := by
  unfold fieldShift; split <;> omega

end Machine

/-! ### The statements -/

open Machine

/-- Settles O20: the group's bits are packed with width 1. -/
theorem monoByteHoldsOneBitPerPixel : Obligations.MonoByteHoldsOneBitPerPixel := by
  rintro m src g j _ hj rfl
  have hmsb := groupByteMono_getLsbD m src g .msbFirst hj
  have hlsb := groupByteMono_getLsbD m src g .lsbFirst hj
  rw [shift_one] at hmsb hlsb
  exact ⟨hmsb, hlsb⟩

/-- Settles O21: the group's levels are packed with width 2. -/
theorem gray2ByteHoldsOneLevelPerPixel : Obligations.Gray2ByteHoldsOneLevelPerPixel := by
  rintro m src g j _ _ hj rfl rfl
  have hmsb := groupByteGray2_field m src g .msbFirst hj
  have hlsb := groupByteGray2_field m src g .lsbFirst hj
  rw [shift_two, toNat_quant2, toNat_gray8_readPixel] at hmsb hlsb
  exact ⟨hmsb, hlsb⟩

/-- Settles O23: a byte of CONV.GRAY8 is the gray value of one pixel. -/
theorem gray2EqualsTheTwoPassConversion : Obligations.Gray2EqualsTheTwoPassConversion := by
  intro m src g o
  simp only [groupByteGray8_eq]
  rfl

end Sys2Proof
end

section
/-! SUPPORT. What the platform's answers make of a group step, and what an engine turn leaves unchanged; then the
statements about the engine's turn (20_memory.md, 40_command.md, 60_exceptions.md). -/

namespace Sys2Proof

namespace Machine

/-! ### The engine's turn -/

theorem step_engine {s : State} (h : s.schedule = []) : step s = engineTurn s := by
  rw [step, h]

/-- A hung engine has no step (40_command.md R104). -/
theorem engineTurn_hung {s : State} (hh : s.hung = true) : engineTurn s = .next s := by
  simp [engineTurn, hh]

/-- In a state that meets the invariant the engine's turn has a next state. -/
theorem engineTurn_exists {s : State} (hI : s.Inv) : ∃ t, engineTurn s = .next t :=
  match h : engineTurn s with
  | .next t => ⟨t, rfl⟩
  | .fault _ => absurd h (engineTurn_no_fault hI)
  | .refused _ => absurd h engineTurn_no_refusal

/-- A turn of a running command that is not hung shows in STATUS, in the engine or in `hung`. -/
theorem engineTurn_ne_self {s t : State} (hb : s.status.busy = true) (hh : s.hung = false)
    (hg : s.engine.g ≤ s.engine.len) (h : engineTurn s = .next t) : t ≠ s := by
  rcases engineTurn_next h with ⟨hidle, -⟩ | ⟨-, -, -, rfl⟩ | ⟨-, -, -, c, -, -, ⟨-, -, rfl⟩ | ⟨-, rfl⟩ | ⟨-, rfl⟩⟩
  · simp [hb, hh] at hidle
    omega
  · intro he
    have hbusy := congrArg (·.status.busy) he
    rw [completeStep_status, hb] at hbusy
    cases hbusy
  · intro he
    have hnext : s.engine.g + 1 = s.engine.g := congrArg (·.engine.g) he
    omega
  · exact fun he => Bool.noConfusion ((congrArg (·.status.busy) he).trans hb)
  · exact fun he => Bool.noConfusion ((congrArg (·.hung) he).trans hh)

/-! ### The platform's answers -/

/-- A colour byte is always read (40_command.md R108). -/
theorem groupHits_of_colour {hit : Nat → Bool} {c : Conv} {src g d j ch : Nat} (hj : j < c.group) (hch : ch < 3)
    (h : hit (src + 4 * (c.group * g + j) + ch) = true) : groupHits hit c src g d = true := by
  refine List.any_eq_true.2 ⟨j, List.mem_range.2 hj, ?_⟩
  have hpixel : pixelAddr src (c.group * g + j) = src + 4 * (c.group * g + j) := rfl
  rw [pixelHits, hpixel]
  obtain rfl | rfl | rfl : ch = 0 ∨ ch = 1 ∨ ch = 2 := by omega
  all_goals simp_all

/-- An answer that no address gets is got by no group. -/
theorem groupHits_of_none {hit : Nat → Bool} {c : Conv} {src g d : Nat} (h : ∀ a, hit a = false) :
    groupHits hit c src g d = false := Machine.groupHits_false fun a _ _ => h a

theorem busAnswer_no_hang (fault pick : Bool) : busAnswer fault false pick = if fault then .busErr else .ok := by
  cases fault <;> rfl

theorem busAnswer_no_fault (hang pick : Bool) : busAnswer false hang pick = if hang then .hang else .ok := by
  cases hang <;> rfl

/-- The output byte a running command is at lies in its destination range. -/
theorem State.outAddr_isDest {s : State} (hg : s.engine.g < s.engine.len) : s.IsDest s.outAddr :=
  ⟨Nat.le_add_right _ _, Nat.add_lt_add_left hg _⟩

/-- The accesses of a running command's group are among those the platform answers for it. -/
theorem State.Running.answers_ok {s : State} {c : Conv} (h : s.Running) (hm : s.engine.mode = c.mode)
    (hg : s.engine.g < s.engine.len) (ha : s.AnsweredFor s.engine.len) :
    s.readAnswer c = .ok ∧ s.writeAnswer = .ok := by
  obtain ⟨hsrc, hdst⟩ := ha
  obtain ⟨hlo, hhi⟩ := State.outAddr_isDest hg
  obtain ⟨hfault, hhang⟩ := hdst s.outAddr hlo hhi
  constructor
  · rw [State.readAnswer, h.groupHits_false hm hg fun a h1 h2 => (hsrc a h1 h2).1,
      h.groupHits_false hm hg fun a h1 h2 => (hsrc a h1 h2).2, busAnswer_ok]
  · rw [State.writeAnswer, hfault, hhang, busAnswer_ok]

/-! ### The outcomes of a group step -/

theorem groupStepOf_store {s : State} {c : Conv} (hs : s.groupInSpace c = true) (hr : s.readAnswer c = .ok)
    (hw : s.writeAnswer = .ok) : groupStepOf c s = .next (storeGroup c s).drawGroup := by
  simp only [groupStepOf, hs, hr, hw, if_true]

theorem groupStepOf_busErr {s : State} {c : Conv} (hs : s.groupInSpace c = true)
    (h : s.readAnswer c = .busErr ∨ (s.readAnswer c = .ok ∧ s.writeAnswer = .busErr)) :
    groupStepOf c s = .next (failBus s.drawGroup) := by
  rcases h with hr | ⟨hr, hw⟩
  · simp only [groupStepOf, hs, hr, if_true]
  · simp only [groupStepOf, hs, hr, hw, if_true]

theorem groupStepOf_hang {s : State} {c : Conv} (hs : s.groupInSpace c = true)
    (h : s.readAnswer c = .hang ∨ (s.readAnswer c = .ok ∧ s.writeAnswer = .hang)) :
    groupStepOf c s = .next (hangEngine s.drawGroup) := by
  rcases h with hr | ⟨hr, hw⟩
  · simp only [groupStepOf, hs, hr, if_true]
  · simp only [groupStepOf, hs, hr, hw, if_true]

/-- A group step whose accesses are all answered stores its byte (40_command.md R105). -/
theorem engineTurn_store {s : State} {c : Conv} (hI : s.Inv) (hb : s.status.busy = true) (hh : s.hung = false)
    (hg : s.engine.g < s.engine.len) (hm : s.engine.mode = c.mode) (ha : s.AnsweredFor s.engine.len) :
    engineTurn s = .next (storeGroup c s).drawGroup := by
  have hrun := hI.running hb
  obtain ⟨hr, hw⟩ := hrun.answers_ok hm hg ha
  rw [engineTurn_group hb hh hg hm, groupStepOf_store (hrun.groupInSpace hm hg) hr hw]

/-- STATUS after a bus error (60_exceptions.md R182). -/
theorem Status.Legal.failed_bus_eq {st : Status} (hL : st.Legal) (hb : st.busy = true) :
    st.failed .bus = { busy := false, done := false, err := true, errcode := 5#4 } := by
  obtain ⟨hdone, -, -⟩ := hL.1 hb
  rw [Status.failed, hdone]; rfl

/-- ERR_BUS gives free values to the destination range alone (60_exceptions.md R182). -/
theorem failBus_read_outside {s : State} {a : Nat} (hI : s.Inv) (hb : s.status.busy = true) (ha : ¬s.IsDest a) :
    (failBus s.drawGroup).mem.read a = s.mem.read a := by
  have hout : a < s.dstAddr.toNat ∨ s.dstAddr.toNat + s.engine.len ≤ a := by
    rw [State.IsDest] at ha
    omega
  exact Memory.read_drawBytes_outside _ hI.memWf (hI.dest_in_space hb) hout

/-! ### What an engine turn leaves -/

/-- The completion step writes STATUS and, of a disturbed command, the destination range (40_command.md R106). -/
theorem completeStep_frame (s : State) :
    completeStep s = { s with
      status := (completeStep s).status
      mem := (completeStep s).mem
      disturbed := (completeStep s).disturbed
      draws := (completeStep s).draws } := by
  unfold completeStep; split <;> rfl

/-- An engine turn writes STATUS, the engine, memory and the model's own fields of a running command. -/
theorem engineTurn_frame {s t : State} (h : engineTurn s = .next t) :
    t = { s with
      status := t.status
      engine := t.engine
      mem := t.mem
      hung := t.hung
      disturbed := t.disturbed
      draws := t.draws } := by
  rcases engineTurn_next h with ⟨-, rfl⟩ | ⟨-, -, -, rfl⟩ | ⟨-, -, -, c, -, -, ⟨-, -, rfl⟩ | ⟨-, rfl⟩ | ⟨-, rfl⟩⟩
  · rfl
  · rw [completeStep_frame]
  all_goals rfl

theorem engineTurn_read_outside {s t : State} {a : Nat} (hI : s.Inv) (h : engineTurn s = .next t)
    (ha : ¬(s.status.busy = true ∧ s.IsDest a)) : t.mem.read a = s.mem.read a := by
  rcases engineTurn_next h with ⟨-, rfl⟩ | ⟨hb, -, -, rfl⟩ | ⟨hb, -, hg, c, -, -, ⟨-, -, rfl⟩ | ⟨-, rfl⟩ | ⟨-, rfl⟩⟩
  · rfl
  · exact completeStep_read_outside hI hb fun hd => ha ⟨hb, hd⟩
  · have hne : a ≠ s.outAddr := by
      rintro rfl
      exact ha ⟨hb, State.outAddr_isDest hg⟩
    exact Memory.read_write_other _ hI.memWf hne
  · exact failBus_read_outside hI hb fun hd => ha ⟨hb, hd⟩
  · rfl

/-- A host operation other than reset leaves a running command's STATUS and engine (10_state.md R28). -/
theorem HostEffect.command_frame {s t : State} {op : HostOp} (h : HostEffect s op t) (hI : s.Inv)
    (hs : s.status.busy = true) (hop : op ≠ .reset) :
    t.status = s.status ∧ t.hung = s.hung ∧ t.engine = s.engine := by
  cases h with
  | ignored | ieStored | stored => exact ⟨rfl, rfl, rfl⟩
  | configured _ _ hb | rejected _ _ _ _ _ _ hb | accepted _ _ _ hb | argStored _ _ _ hb =>
    exact Bool.noConfusion (hs.symm.trans hb)
  | acked _ v => exact ⟨hI.status.acked_busy hs v, rfl, rfl⟩
  | read _ r => rw [readRegOp, noteRead_busy r hs]; exact ⟨rfl, rfl, rfl⟩
  | polled _ r =>
    rw [pollOp, noteRead_busy r hs]
    split <;> exact ⟨rfl, rfl, rfl⟩
  | loaded a => rw [loadByte_eq]; exact ⟨rfl, rfl, rfl⟩
  | reset => exact absurd rfl hop

end Machine

/-! ### The statements -/

open Machine

/-- Settles O24: idle or hung the turn is the state itself; otherwise it neither faults nor refuses, and its next state
differs. -/
theorem engineStepsExactlyWhileBusy : Obligations.EngineStepsExactlyWhileBusy := by
  refine ⟨fun s => step_engine, fun s => engineTurn_idle, fun s => engineTurn_hung, fun s hI hb hh => ?_⟩
  obtain ⟨t, ht⟩ := engineTurn_exists hI
  exact ⟨t, ht, engineTurn_ne_self hb hh (hI.running hb).inside ht⟩

/-- Settles O25: the reads lie in the source range and the write in the destination range, so all are answered. -/
theorem groupStepStoresOneByte : Obligations.GroupStepStoresOneByte := by
  intro s c hI hb hh hg hm ha
  exact ⟨_, engineTurn_store hI hb hh hg hm ha, rfl, Memory.read_write_same _ _ hI.memWf,
    fun a hne => Memory.read_write_other _ hI.memWf hne⟩

/-- Settles O26: the group step ends in `failBus`; with no missing response a fault on a colour byte is the answer to
the reads, and one on the write is the answer when the reads have none. -/
theorem busErrorEndsTheCommand : Obligations.BusErrorEndsTheCommand := by
  refine fun s c hI hb hh hg hm => ⟨fun herr => ?_, fun hhang hfault => ?_⟩
  · have hstatus : (failBus s.drawGroup).status = { busy := false, done := false, err := true, errcode := 5#4 } :=
      hI.status.failed_bus_eq hb
    refine ⟨failBus s.drawGroup, ?_, ?_, fun a ha => failBus_read_outside hI hb ha, engineTurn_idle rfl⟩
    · rw [engineTurn_group hb hh hg hm, groupStepOf_busErr ((hI.running hb).groupInSpace hm hg) herr]
    · rw [← hstatus]; rfl
  · rw [State.readAnswer, State.writeAnswer, groupHits_of_none fun a => hhang a .rd, hhang, busAnswer_no_hang,
      busAnswer_no_hang]
    rcases hfault with ⟨j, ch, hj, hch, hf⟩ | hf
    · exact .inl (if_pos (groupHits_of_colour (hit := (s.platform.busFault · .rd)) hj hch hf))
    · cases groupHits (s.platform.busFault · .rd) c s.srcAddr.toNat s.engine.g s.draws
      · exact .inr ⟨rfl, if_pos hf⟩
      · exact .inl rfl

/-- Settles O27: the write is answered, and the reads are or get an error response. -/
theorem alphaFaultMayOrMayNotEndTheCommand : Obligations.AlphaFaultMayOrMayNotEndTheCommand := by
  intro s c hI hb hh hg hm hhang hwrite _
  have hspace := (hI.running hb).groupInSpace hm hg
  have hw : s.writeAnswer = .ok := by
    rw [State.writeAnswer, hwrite _ (State.outAddr_isDest hg), hhang, busAnswer_ok]
  have hr : s.readAnswer c = .busErr ∨ s.readAnswer c = .ok := by
    rw [State.readAnswer, groupHits_of_none fun a => hhang a .rd, busAnswer_no_hang]
    split
    · exact .inl rfl
    · exact .inr rfl
  rw [engineTurn_group hb hh hg hm]
  rcases hr with hr | hr
  · exact ⟨_, groupStepOf_busErr hspace (.inl hr), .inr (hI.status.failed_bus_eq hb)⟩
  · exact ⟨_, groupStepOf_store hspace hr hw, .inl ⟨rfl, rfl, Memory.read_write_same _ _ hI.memWf⟩⟩

/-- Settles O28: the group step ends in `hangEngine`; a hung engine has no turn, and no host operation but reset touches
STATUS or the engine while BUSY. -/
theorem hangEndsOnlyAtReset : Obligations.HangEndsOnlyAtReset := by
  refine ⟨fun s c hI hb hh hg hm => ⟨fun hans => ?_, fun hsrc hdst hhang => ?_⟩, fun s t hI hb hh h hsch => ?_⟩
  · refine ⟨hangEngine s.drawGroup, ?_, rfl⟩
    rw [engineTurn_group hb hh hg hm, groupStepOf_hang ((hI.running hb).groupInSpace hm hg) hans]
  · have hreads : groupHits (s.platform.busFault · .rd) c s.srcAddr.toNat s.engine.g s.draws = false :=
      (hI.running hb).groupHits_false hm hg fun a h1 h2 => hsrc a (State.srcRange_has_iff.2 ⟨h1, h2⟩)
    have hwrite : s.platform.busFault s.outAddr .wr = false := hdst
    rw [State.readAnswer, State.writeAnswer, hreads, hwrite, busAnswer_no_fault, busAnswer_no_fault]
    rcases hhang with ⟨j, ch, hj, hch, hf⟩ | hf
    · exact .inl (if_pos (groupHits_of_colour (hit := (s.platform.busHang · .rd)) hj hch hf))
    · cases groupHits (s.platform.busHang · .rd) c s.srcAddr.toNat s.engine.g s.draws
      · exact .inr ⟨rfl, if_pos hf⟩
      · exact .inl rfl
  · rcases step_cases s with ⟨-, hst⟩ | ⟨rest, -, hst⟩ | ⟨op, rest, hs, hst⟩ <;> rw [hst] at h
    · rw [engineTurn_hung hh] at h
      cases h
      exact ⟨rfl, hh, rfl⟩
    · rw [engineTurn_hung (s := { s with schedule := rest }) hh] at h
      cases h
      exact ⟨rfl, hh, rfl⟩
    · have hop : op ≠ .reset := by
        rintro rfl
        exact hsch (by rw [hs]; rfl)
      obtain ⟨hstatus, hhung, hengine⟩ := (hostStep_effect h).command_frame (hI.withSchedule rest) hb hop
      exact ⟨hstatus, hhung.trans hh, hengine⟩

/-- Settles O30: every next state of the turn, byte by byte and field by field. -/
theorem engineChangesOnlyTheDestination : Obligations.EngineChangesOnlyTheDestination := by
  intro s t hI h
  refine ⟨fun a ha => engineTurn_read_outside hI h ha, ?_⟩
  rw [engineTurn_frame h]
  exact ⟨rfl, rfl, rfl, rfl, rfl, rfl, rfl, rfl, rfl, rfl⟩

end Sys2Proof
end

section
/-! SUPPORT. Which bytes a host load returns exactly and which freely, and what a host store while idle leaves; then the
statements about host loads and stores (20_memory.md §6). -/

namespace Sys2Proof

namespace Machine

/-! ### Ordinary memory -/

theorem hostStep_lb {a : Word} {s : State} (h : ∀ r ∈ s.platform.sideEffects, r.has a.toNat = false) :
    hostStep (.lb a) s = .next (loadByte a.toNat s) := by
  simp only [hostStep, byteAccessRefusal_none h]

theorem hostStep_sb {a : Word} {v : Byte} {s : State} (h : ∀ r ∈ s.platform.sideEffects, r.has a.toNat = false) :
    hostStep (.sb a v) s = .next (storeByte a.toNat v s) := by
  simp only [hostStep, byteAccessRefusal_none h]

/-! ### The ranges of a running command -/

theorem State.inSource_idle {s : State} (a : Nat) (hb : s.status.busy = false) : s.inSource a = false := by
  simp [State.inSource, hb]

theorem State.inDest_idle {s : State} (a : Nat) (hb : s.status.busy = false) : s.inDest a = false := by
  simp [State.inDest, hb]

/-- A destination byte of a running command is no source byte (40_command.md R103). -/
theorem State.Inv.inSource_of_isDest {s : State} {a : Nat} (hI : s.Inv) (hb : s.status.busy = true)
    (ha : s.IsDest a) : s.inSource a = false := by
  obtain ⟨c, hm⟩ := (hI.running hb).conv
  obtain ⟨-, -, -, -, hapart, -⟩ := (hI.running hb).ranges hm
  rw [← Bool.not_eq_true, State.inSource_iff]
  rintro ⟨-, hlo, hhi⟩
  exact hapart a ⟨hlo, hhi, ha.1, ha.2⟩

/-! ### Loads of settled bytes -/

/-- A load of a byte with no unseen writer is exact (20_memory.md R58). -/
theorem loadByte_settled {s : State} {a : Nat} (h : s.unsettled a = false) :
    loadByte a s = s.pushResult (.byte (s.mem.read a)) := by
  rw [loadByte, h]; rfl

theorem hostStep_lb_settled {s : State} {a : Word} (h : ∀ r ∈ s.platform.sideEffects, r.has a.toNat = false)
    (hu : s.unsettled a.toNat = false) :
    hostStep (.lb a) s = .next (s.pushResult (.byte (s.mem.read a.toNat))) := by
  rw [hostStep_lb h, loadByte_settled hu]

theorem State.unsettled_of_synced {s : State} (a : Nat) (hb : s.status.busy = false) (hu : s.unsynced = []) :
    s.unsettled a = false := by
  simp [State.unsettled, State.inDest_idle a hb, hu]

theorem State.unsettled_of_inSource {s : State} {a : Nat} (h : s.inSource a = true) : s.unsettled a = false := by
  simp [State.unsettled, h]

/-! ### Loads of unsettled bytes -/

/-- A load of an unsettled byte of an undisturbed command returns one of its candidates (20_memory.md R58). -/
theorem loadByte_candidate {s : State} {a : Nat} (hu : s.unsettled a = true)
    (hd : (s.disturbed && s.inDest a) = false) :
    ∃ b ∈ s.candidates a, (loadByte a s).results = .byte b :: s.results := by
  refine ⟨s.unsettledByte a, ?_, by rw [loadByte, hu]; rfl⟩
  rw [State.unsettledByte, hd]
  exact drawFrom_mem _ (List.cons_ne_nil _ _)

/-- With one command unobserved a byte of its range is its final value or its one old value. -/
theorem State.candidates_of_one {s : State} {a : Nat} {tr : Transfer} (hu : s.unsynced = [tr]) (ha : tr.has a = true) :
    s.candidates a = [s.finalByte a, tr.old.read a] := by
  simp [State.candidates, hu, ha]

/-- The outcome of a host load of such a byte. -/
theorem hostStep_lb_one {s : State} {a : Word} {tr : Transfer} (hu : s.unsynced = [tr]) (ha : tr.has a.toNat = true)
    (hord : ∀ r ∈ s.platform.sideEffects, r.has a.toNat = false) (hsrc : s.inSource a.toNat = false)
    (hd : (s.disturbed && s.inDest a.toNat) = false) :
    ∃ (t : State) (b : Byte), hostStep (.lb a) s = .next t ∧ t.results = .byte b :: s.results ∧ t.mem = s.mem ∧
      (b = tr.old.read a.toNat ∨ b = s.finalByte a.toNat) := by
  have hunsettled : s.unsettled a.toNat = true := by simp [State.unsettled, hsrc, hu, ha]
  obtain ⟨b, hb, hres⟩ := loadByte_candidate hunsettled hd
  rw [State.candidates_of_one hu ha] at hb
  refine ⟨loadByte a.toNat s, b, hostStep_lb hord, hres, loadByte_mem _ s, ?_⟩
  rcases List.mem_cons.1 hb with hb | hb
  · exact .inr hb
  · exact .inl (List.mem_singleton.1 hb)

theorem State.finalByte_idle {s : State} (a : Nat) (hb : s.status.busy = false) : s.finalByte a = s.mem.read a := by
  rw [State.finalByte, State.inDest_idle a hb]

/-- The final value of a destination byte of a running command is its group's byte (20_memory.md R58). -/
theorem State.finalByte_inDest {s : State} {a : Nat} {c : Conv} (ha : s.inDest a = true) (hm : s.engine.mode = c.mode) :
    s.finalByte a = groupByte c s.mem s.srcAddr.toNat (a - s.dstAddr.toNat) s.engine.order := by
  rw [State.finalByte, ha, hm, conv?_mode]

/-! ### Stores while idle -/

/-- A host store while idle writes the byte and settles it (20_memory.md R59). -/
theorem storeByte_idle {s : State} (a : Nat) (v : Byte) (hb : s.status.busy = false) :
    storeByte a v s =
      { s with mem := s.mem.write a v, unsynced := s.unsynced.map (Transfer.settle a v) } := by
  rw [storeByte, State.inSource_idle a hb, State.inDest_idle a hb, Bool.or_false, Bool.or_false]

end Machine

/-! ### The statements -/

open Machine

/-- Settles O53: no byte has an unseen writer, and the store has no range to disturb and no old value to settle. -/
theorem settledLoadsAndStoresAreOrdinary : Obligations.SettledLoadsAndStoresAreOrdinary := by
  intro s a v hI hb hu hord
  refine ⟨?_, storeByte a.toNat v s, hostStep_sb hord, ?_, Memory.read_write_same _ _ hI.memWf,
    fun b hne => Memory.read_write_other _ hI.memWf hne⟩
  · exact hostStep_lb_settled hord (State.unsettled_of_synced _ hb hu)
  · rw [storeByte_idle _ _ hb, hu, List.map_nil, ← hu]

/-- Settles O54: the load draws among the final value and the one old value; the final value is the group's byte while
the command runs and memory's byte after its end. -/
theorem destinationLoadBeforeTheEndIsSeenIsOldOrFinal :
    Obligations.DestinationLoadBeforeTheEndIsSeenIsOldOrFinal := by
  intro s a tr hu hlo hhi hord
  have ha : tr.has a.toNat = true := Transfer.has_iff.2 ⟨hlo, hhi⟩
  refine ⟨fun c hI hb hd hm => ?_, fun hb => ?_⟩
  · obtain ⟨hdst, hlen⟩ := (hI.running hb).head_transfer (congrArg List.head? hu)
    rw [hdst] at hlo
    rw [hdst, hlen] at hhi
    rw [← State.finalByte_inDest (State.inDest_iff.2 ⟨hb, hlo, hhi⟩) hm]
    exact hostStep_lb_one hu ha hord (hI.inSource_of_isDest hb ⟨hlo, hhi⟩) (by rw [hd, Bool.false_and])
  · rw [← State.finalByte_idle a.toNat hb]
    exact hostStep_lb_one hu ha hord (State.inSource_idle _ hb) (by rw [State.inDest_idle _ hb, Bool.and_false])

/-- Settles O55: a source byte of the running command is settled, whoever wrote it before. -/
theorem sourceLoadWhileBusyIsExact : Obligations.SourceLoadWhileBusyIsExact := by
  intro s a hb hlo hhi hord
  exact hostStep_lb_settled hord (State.unsettled_of_inSource (State.inSource_iff.2 ⟨hb, hlo, hhi⟩))

/-- Settles O56: the store writes one byte and the mark; the completion step of a marked command draws its destination
range alone. -/
theorem storeIntoARunningRangeKeepsTheEnd : Obligations.StoreIntoARunningRangeKeepsTheEnd := by
  refine ⟨fun s a v hI hb hrange hord => ?_, fun s hI hb hh hg _ => ?_⟩
  · refine ⟨storeByte a.toNat v s, hostStep_sb hord, ?_, rfl, rfl,
      fun b hne => Memory.read_write_other _ hI.memWf hne⟩
    rw [storeByte_disturbed]
    rcases hrange with hdest | hsource
    · rw [State.inDest_iff.2 ⟨hb, hdest⟩, Bool.or_true]
    · rw [State.inSource_iff.2 ⟨hb, hsource⟩, Bool.or_true, Bool.true_or]
  · refine ⟨completeStep s, engineTurn_complete hb hh hg, ?_, fun a ha => completeStep_read_outside hI hb ha⟩
    rw [completeStep_status, hI.status.completed_eq hb]

/-- Settles O57: the read empties the list of unobserved commands. -/
theorem statusReadOfIdleSynchronises : Obligations.StatusReadOfIdleSynchronises := by
  intro s hb
  have hread : readRegOp .status s = ({ s with unsynced := [] } : State).pushResult (.word (s.readReg .status)) := by
    rw [readRegOp, noteRead, if_pos ⟨rfl, hb⟩]
  refine ⟨_, hostStep_regRead (r := .status) rfl s, ?_, fun a hord => ?_⟩ <;> rw [hread]
  · rfl
  · exact hostStep_lb_settled (s := ({ s with unsynced := [] } : State).pushResult (.word (s.readReg .status))) hord
      (State.unsettled_of_synced _ hb rfl)

/-- Settles O60: the store settles the byte, so that its only value, old or final, is the one stored. -/
theorem idleStoreTakesEffectAtOnce : Obligations.IdleStoreTakesEffectAtOnce := by
  intro s a v hI hb hord
  exact ⟨storeByte a.toNat v s, hostStep_sb hord, storeByte_idle _ _ hb, Memory.read_write_same _ _ hI.memWf,
    fun b hne => Memory.read_write_other _ hI.memWf hne, loadByte a.toNat (storeByte a.toNat v s), hostStep_lb hord,
    loadByte_storeByte hI.memWf hI.oldWf hb, loadByte_mem _ _⟩

end Sys2Proof
end

section
/-! SUPPORT. The run of a command that is left alone, group by group, from its START and from its CTRL write; then the
statements about whole commands (40_command.md, 41_mono.md, 42_gray8.md, 43_gray2.md, 70_reset_and_hazards.md §4). -/

namespace Sys2Proof

namespace Machine

/-! ### The groups of a command left alone -/

/-- The command of `s` at output byte `g`, with other contents of memory and another count of draws. -/
def State.atGroup (s : State) (m : Memory) (d g : Nat) : State :=
  { s with mem := m, draws := d, engine := { s.engine with g := g } }

/-- Memory `m` holds the first `k` output bytes of the command of `s` and is otherwise that of `s`. -/
def State.OutputIn (s : State) (c : Conv) (k : Nat) (m : Memory) : Prop :=
  (∀ i, i < k → m.read (s.dstAddr.toNat + i) = groupByte c s.mem s.srcAddr.toNat i s.engine.order) ∧
  ∀ a, ¬(s.dstAddr.toNat ≤ a ∧ a < s.dstAddr.toNat + k) → m.read a = s.mem.read a

/-- Storing the byte of group `k` adds it to the output: the source bytes are still those of `s`. -/
theorem State.OutputIn.write {s : State} {c : Conv} {k : Nat} {m : Memory} (h : s.OutputIn c k m)
    (hI : s.Inv) (hb : s.status.busy = true) (hm : s.engine.mode = c.mode) (hk : k < s.engine.len)
    (hwf : m.wf = true) :
    s.OutputIn c (k + 1)
      (m.write (s.dstAddr.toNat + k) (groupByte c m s.srcAddr.toNat k s.engine.order)) := by
  obtain ⟨hbytes, hother⟩ := h
  obtain ⟨-, -, -, -, hapart, hgroups⟩ := (hI.running hb).ranges hm
  have hbyte : groupByte c m s.srcAddr.toNat k s.engine.order = groupByte c s.mem s.srcAddr.toNat k s.engine.order :=
    groupByte_of_source (hgroups k hk) fun a hlo hhi => hother a fun hd => hapart a ⟨hlo, hhi, hd.1, by omega⟩
  refine ⟨fun i hi => ?_, fun a ha => ?_⟩
  · rw [Memory.read_write _ _ _ hwf]
    split
    next he => rw [hbyte, show i = k by omega]
    next hne => exact hbytes i (by omega)
  · rw [Memory.read_write_other _ hwf (by omega)]
    exact hother a (by omega)

section
variable {s : State} {c : Conv}

/-- `k` engine steps of a command just started and left alone produce its first `k` output bytes (40_command.md
R105). -/
theorem run_groups (hI : s.Inv) (hb : s.status.busy = true) (hh : s.hung = false) (hg : s.engine.g = 0)
    (hm : s.engine.mode = c.mode) (hs : s.schedule = []) (ha : s.AnsweredFor s.engine.len) {k : Nat}
    (hk : k ≤ s.engine.len) :
    ∃ m d, Host.Core.run Sys2Proof.core k s = .next (s.atGroup m d k) ∧ (s.atGroup m d k).Inv ∧ s.OutputIn c k m := by
  induction k with
  | zero =>
    have hstart : s.atGroup s.mem s.draws 0 = s := by rw [State.atGroup, ← hg]
    refine ⟨s.mem, s.draws, ?_, ?_, nofun, fun _ _ => rfl⟩
    · rw [hstart]; rfl
    · rw [hstart]; exact hI
  | succ k ih =>
    obtain ⟨m, d, hrun, hIk, hout⟩ := ih (Nat.le_of_succ_le hk)
    have hstep : step (s.atGroup m d k) = .next (storeGroup c (s.atGroup m d k)).drawGroup :=
      (step_engine (s := s.atGroup m d k) hs).trans (engineTurn_store hIk hb hh hk hm ha)
    exact ⟨_, _, run_snoc hrun hstep, step_inv hIk hstep, hout.write hI hb hm hk hIk.memWf⟩

/-- The whole run of a command just started and left alone (70_reset_and_hazards.md §4). -/
theorem run_command (hI : s.Inv) (hb : s.status.busy = true) (hh : s.hung = false) (hd : s.disturbed = false)
    (hg : s.engine.g = 0) (hm : s.engine.mode = c.mode) (hs : s.schedule = []) (ha : s.AnsweredFor s.engine.len) :
    ∃ m d, Host.Core.run Sys2Proof.core (s.engine.len + 1) s =
        .next { s.atGroup m d s.engine.len with
          status := { busy := false, done := true, err := false, errcode := 0#4 } } ∧
      s.OutputIn c s.engine.len m := by
  obtain ⟨m, d, hrun, -, hout⟩ := run_groups hI hb hh hg hm hs ha (Nat.le_refl _)
  have hstep : step (s.atGroup m d s.engine.len) =
      .next { s.atGroup m d s.engine.len with status := s.status.completed } :=
    calc step (s.atGroup m d s.engine.len)
      _ = engineTurn (s.atGroup m d s.engine.len) := step_engine hs
      _ = .next (completeStep (s.atGroup m d s.engine.len)) := engineTurn_complete hb hh rfl
      _ = _ := congrArg Host.Outcome.next (completeStep_undisturbed hd)
  rw [hI.status.completed_eq hb] at hstep
  exact ⟨m, d, run_snoc hrun hstep, hout⟩

end

/-! ### A conversion from its CTRL write to DONE -/

/-- The word of an instruction is a row of the opcode table that decodes to it (30_encoding.md R71). -/
theorem decodeTableWord_encode (i : Instr) : decodeTableWord 32 (encode i).toNat = some i := by
  have hlt : ¬2 ^ 32 ≤ (encode i).toNat := Nat.not_le.2 (encode i).isLt
  rw [decodeTableWord, decodeBits, if_neg (by decide), if_neg hlt, BitVec.ofNat_toNat, BitVec.setWidth_eq,
    decodeWord_encode]

/-- What a conversion leaves at DONE: its report, and its output of `n` bytes in memory that is otherwise as before. -/
structure State.Converted (s : State) (c : Conv) (o : BitOrder) (ie : Bool) (n : Nat) (t : State) : Prop where
  status : t.status = { busy := false, done := true, err := false, errcode := 0#4 }
  outlen : t.outlen.toNat = n
  irq : t.irq = ie
  order : t.ctrl.order = o
  bytes : ∀ i, i < n → t.mem.read (s.dstAddr.toNat + i) = groupByte c s.mem s.srcAddr.toNat i o
  others : ∀ a, ¬(s.dstAddr.toNat ≤ a ∧ a < s.dstAddr.toNat + n) → t.mem.read a = s.mem.read a

/-- The run of a conversion from its CTRL write (40_command.md §1, §2). -/
theorem run_conversion {s : State} {c : Conv} {n : Nat} (o : BitOrder) (ie : Bool) (hI : s.Inv)
    (hb : s.status.busy = false) (hs : s.schedule = []) (hf : s.Fits c) (hn : outputLength c s.pixelCount = n)
    (ha : s.AnsweredFor n) :
    ∃ t : State, Host.Core.run Sys2Proof.core (n + 2) (s.withFetchWord 32 (encode (convInstr c o ie)).toNat) =
      .next t ∧ s.Converted c o ie n t := by
  subst hn
  have hstep : step (s.withFetchWord 32 (encode (convInstr c o ie)).toNat) = .next (s.started c o ie) :=
    (step_withFetchWord (decodeTableWord_encode _)).trans (exec_convInstr_accept o ie hb hf)
  have hIs : (s.started c o ie).Inv := step_inv (hI.withSchedule _) hstep
  obtain ⟨m, d, hrun, hbytes, hothers⟩ := run_command hIs rfl rfl rfl rfl rfl hs ha
  refine ⟨_, (run_succ_next hstep).trans hrun, rfl, (hIs.running rfl).outlen, ?_, rfl, hbytes, hothers⟩
  exact Bool.and_true ie

/-- Output bytes of two rasters with the same colour bytes are the same (40_command.md R108). -/
theorem groupByte_of_colours {s s' : State} {c : Conv} {o : BitOrder} {n g : Nat} (hn : n % 8 = 0)
    (hg : g < outputLength c n) (h : ∀ i, i < n → s.chR i = s'.chR i ∧ s.chG i = s'.chG i ∧ s.chB i = s'.chB i) :
    groupByte c s.mem s.srcAddr.toNat g o = groupByte c s'.mem s'.srcAddr.toNat g o := by
  refine groupByte_congr fun j hj => ?_
  obtain ⟨hr, hgr, hbl⟩ := h _ (group_pixel_lt hn hg hj)
  rw [readPixel, readPixel, Pixel.mk.injEq]
  exact ⟨BitVec.eq_of_toNat_eq hr, BitVec.eq_of_toNat_eq hgr, BitVec.eq_of_toNat_eq hbl⟩

end Machine

/-! ### The statements -/

open Machine

/-- Settles O39: `k` group steps produce `k` output bytes, and the step after the last is the completion. -/
theorem commandTakesLengthPlusOneSteps : Obligations.CommandTakesLengthPlusOneSteps := by
  intro s c hI hb hh hd hg hm hs ha
  refine ⟨fun k hk => ?_, ?_⟩
  · obtain ⟨m, d, hrun, -, -⟩ := run_groups hI hb hh hg hm hs ha hk
    exact ⟨_, hrun, rfl, rfl⟩
  · obtain ⟨m, d, hrun, hbytes, hothers⟩ := run_command hI hb hh hd hg hm hs ha
    exact ⟨_, hrun, rfl, hbytes, hothers⟩

/-- Settles O40: pixel `i` is value `i mod 8` of the group in output byte `i div 8`. -/
theorem convMonoWritesOneBitPerPixel : Obligations.ConvMonoWritesOneBitPerPixel := by
  intro s o ie hI hb hs hf ha
  have hdim := hf.dim
  obtain ⟨hlen, -, -, -⟩ := outputLengthOfEachMode _ hdim
  obtain ⟨t, hrun, h⟩ := run_conversion o ie hI hb hs hf hlen ha
  refine ⟨t, hrun, h.status, h.outlen, h.irq, fun i hi => ?_, h.others⟩
  have hbit := groupByteMono_getLsbD s.mem s.srcAddr.toNat (i / 8) o (Nat.mod_lt i (by decide))
  rw [shift_one, Nat.div_add_mod] at hbit
  rw [h.bytes _ (by omega)]
  exact hbit

/-- Settles O41: output byte `i` is the gray value of pixel `i`. -/
theorem convGray8WritesOneMeanPerPixel : Obligations.ConvGray8WritesOneMeanPerPixel := by
  intro s o ie hI hb hs hf ha
  obtain ⟨-, hlen, -, -⟩ := outputLengthOfEachMode _ hf.dim
  obtain ⟨t, hrun, h⟩ := run_conversion o ie hI hb hs hf hlen ha
  refine ⟨t, hrun, h.status, h.outlen, h.irq, h.order, fun i hi => ?_, h.others⟩
  rw [h.bytes i hi, groupByte, groupByteGray8_eq]
  exact toNat_gray8_readPixel s.mem s.srcAddr.toNat i

/-- Settles O42: pixel `i` is value `i mod 4` of the group in output byte `i div 4`. -/
theorem convGray2WritesOneLevelPerPixel : Obligations.ConvGray2WritesOneLevelPerPixel := by
  intro s o ie hI hb hs hf ha
  have hdim := hf.dim
  obtain ⟨-, -, hlen, -⟩ := outputLengthOfEachMode _ hdim
  obtain ⟨t, hrun, h⟩ := run_conversion o ie hI hb hs hf hlen ha
  refine ⟨t, hrun, h.status, h.outlen, h.irq, ?_, h.others⟩
  rintro i _ hi rfl
  have hfield := groupByteGray2_field s.mem s.srcAddr.toNat (i / 4) o (Nat.mod_lt i (by decide))
  rw [shift_two, Nat.div_add_mod, toNat_quant2, toNat_gray8_readPixel] at hfield
  rw [h.bytes _ (by omega)]
  exact hfield

/-- Settles O43: each run ends with the group bytes of its raster, and these depend on the colour bytes alone. -/
theorem outputDependsOnColoursModeAndOrderAlone : Obligations.OutputDependsOnColoursModeAndOrderAlone := by
  intro s s' t t' c o ie ie' n hI hI' hb hb' hs hs' hf hf' hn hn' ha ha' hcol hrun hrun' i hi
  subst hn
  obtain ⟨u, hu, h⟩ := run_conversion o ie hI hb hs hf rfl ha
  obtain ⟨u', hu', h'⟩ := run_conversion o ie' hI' hb' hs' hf' (congrArg (outputLength c) hn') ha'
  obtain rfl : u = t := Host.Outcome.next.inj (hu.symm.trans hrun)
  obtain rfl : u' = t' := Host.Outcome.next.inj (hu'.symm.trans hrun')
  rw [h.bytes i hi, h'.bytes i hi, groupByte_of_colours hf.dim hi hcol]

end Sys2Proof
end
